-- ==== Sys2Proof/Word.lean ====
section
/-! DEFINITION. The bit vectors of the hardware: the word, the target field, the program counter and the instruction
counter, each at the width `spec/` gives it. Bit 15 of a word is its most significant bit and the first character of
the source's digit string (00_scope.md R6, R7; UNVERIFIED, unsafe, log entry 21). -/

namespace Sys2Proof

/-- One 16-bit word: a memory cell, an instruction, the accumulator (00_scope.md R5 `WORD`, R6). -/
abbrev Word := BitVec 16

/-- The 12-bit target field of an instruction (00_scope.md R5 `TGTW`; 30_encoding.md R50). -/
abbrev Target := BitVec 12

/-- The 13-bit program counter, the least width that holds 4096 and 7777 (10_state.md R16, decision D4; UNVERIFIED, unsafe, log entry 9). -/
abbrev Pc := BitVec 13

/-- The 8-bit instruction counter (10_state.md R22, decision D6; UNVERIFIED, unsafe, log entry 11). -/
abbrev Counter := BitVec 8

end Sys2Proof
end

