-- ==== Sys2Proof/Machine/State.lean ====
section
/-! DEFINITION. The state of the machine as plain data, holding everything 10_state.md R13 lists and nothing else
("Nothing else is state"), the outcomes inside one cycle, the reasons a model step can stop, and the state right after
reset. -/

namespace Sys2Proof.Machine

/-- The run state (10_state.md R20). -/
inductive RunState where
  | running
  | haltedStop
  | haltedPcOverflow
  | haltedTimeout
  | haltedError
  deriving DecidableEq, Repr

/-- Why `run` is HALTED_ERROR; `none` in every other run state (10_state.md R21). -/
inductive Cause where
  | none
  | addressOutOfBounds
  | illegalOpcode
  | inputExhausted
  | invalidInputToken
  deriving DecidableEq, Repr

/-- One item of the input port: a token decoded to a 16-bit value, or a token its collaborator reported as an error
(43_extended_io.md R84, decision D9; UNVERIFIED, safe, log entry 14). -/
inductive InItem where
  | value (v : Word)
  | invalid
  deriving DecidableEq, Repr

/-- The check that failed when an address is out of bounds: a diagnostic that no rule reads and the state does not
record (60_exceptions.md R94, decision D12; UNVERIFIED, safe, log entry 17). -/
inductive Stage where
  | fetch
  | target
  | pointer
  | pointerValue
  | operand
  deriving DecidableEq, Repr

/-- What an instruction raises: a cause with its diagnostic (60_exceptions.md R94 to R97). -/
inductive Raise where
  | addressOutOfBounds (stage : Stage) (addr : Nat)
  | illegalOpcode (w : Word)
  | inputExhausted
  | invalidInputToken
  deriving DecidableEq, Repr

/-- The sequencing outcome an instruction leaves for the end of its cycle; it lives inside one cycle and is no state
(40_cycle_and_resolver.md R67, 10_state.md R26). -/
inductive Sequencing where
  | seq
  | jump (loc : Nat)
  | stop
  deriving DecidableEq, Repr

/-- One listed cell: a word address and the 16-bit word it holds. The spec's addressable unit is the word and it has
no bytes (20_memory.md R30; DESIGN CHOICE, safe, log entry 1). -/
abbrev Cell := Nat × Word

/-- The cells whose word is not zero, in rising order of address. Whether a cell EXISTS is said by `memLen`, never by
this list; an existing cell that is not listed holds the word 0 (10_state.md R24; DESIGN CHOICE, safe, log entry 1). -/
abbrev Memory := List Cell

/-- The canonical form: addresses strictly rising, and no listed word equal to what an unlisted cell holds. -/
abbrev Memory.wf (mem : Memory) : Prop :=
  mem.Pairwise (fun a b => a.1 < b.1) ∧ ∀ c ∈ mem, c.2 ≠ 0#16

/-- The complete state during a run (10_state.md R13). -/
structure State where
  /-- the accumulator (R14) -/
  acc : Word
  /-- the program counter (R16) -/
  pc : Pc
  /-- the instructions of this run that completed execute (R22) -/
  icount : Counter
  /-- the run state (R20) -/
  run : RunState
  /-- the fault cause (R21) -/
  cause : Cause
  /-- `MEMLEN`, the number of words the loader supplied (R23) -/
  memLen : Nat
  /-- the cells of memory (R24) -/
  mem : Memory
  /-- `in`, the input items not yet consumed (R25) -/
  input : List InItem
  /-- `out`, the words emitted so far, oldest first (R25) -/
  out : List Word
  deriving DecidableEq, Repr

/-- The faults of the HOST's outcome. There is none: every fault of the spec is taken as 60_exceptions.md R100
describes, which is a next state (DEDUCED, safe, log entry 3), so no step of this model stops with one. -/
inductive Fault where
  deriving DecidableEq, Repr

/-- The refusals of the host's outcome. -/
inductive Refusal where
  /-- Raised by an arm of `exec` for an instruction that has no meaning yet. Safe: the model stops. No arm raises it. -/
  | notModelled (mnemonic : String)
  /-- Raised by `load` alone, for an image of more than 4096 words: "A longer image is refused, not truncated"
  (92_eei_decisions.md D17). Safe: the model says nothing of such a run. No step raises it. -/
  | imageTooLong
  deriving DecidableEq, Repr

/-- The machine right after reset, with the values of 10_state.md R28. What R28 leaves to the host, the loaded words
with their count and the input sequence, is empty here; `load` is the reset with any image and input, and this state is
`load [] []` (DESIGN CHOICE, unsafe, log entry 2). -/
def State.reset : State where
  acc := 0#16
  pc := 0#13
  icount := 0#8
  run := .running
  cause := .none
  memLen := 0
  mem := []
  input := []
  out := []

end Sys2Proof.Machine
end

