-- ==== Sys2Proof/Machine/Flags.lean ====
section
/-! DEFINITION. The hardware has no status flags and no condition codes (10_state.md R19): ADD and SUB record nothing.
What stands here is the signed reading of a word and the one predicate an instruction tests. -/

namespace Sys2Proof.Machine

/-- `ToSigned16` (00_scope.md R10): the two's-complement reading of a 16-bit pattern. -/
def toSigned16 (u : Word) : Int :=
  if 32768 ≤ u.toNat then (u.toNat : Int) - 65536 else u.toNat

/-- The predicate of BAN: `acc >= 32768` (42_branch.md R80, 10_state.md R19). -/
def accNegative (s : State) : Bool := 32768 ≤ s.acc.toNat

end Sys2Proof.Machine
end

