-- ==== Sys2Proof/Config.lean ====
section
/-! DEFINITION. The fixed sizes and constants of the hardware (00_scope.md R5) and the one free value. The spec leaves no value of the MACHINE open (93_implementation_defined.md: "no `any value` results"); the free
value belongs to a pure function that only writes words down. The one argument of a run, the memory image with the
input sequence, is an argument of `Machine.load`. -/

namespace Sys2Proof.Config

/-- `KMAXMEMORY`: the largest number of words of a memory, and the INCLUSIVE bound of the range check
(00_scope.md R5, 20_memory.md R32). -/
def kMaxMemory : Nat := 4096

/-- `PC_HALT`: the value of `pc` that means "stopped by STP", read as decimal (00_scope.md R5, decision D4). -/
def pcHalt : Pc := 7777#13

/-- `ICOUNT_MAX`: the instruction-count ceiling (00_scope.md R5, 40_cycle_and_resolver.md R69). -/
def icountMax : Counter := 128#8

/-- FREE VALUE: the number whose digits `ToBitString(value, width)` shows when `value` has more than `width` digits, on
which 00_scope.md R7 and R8 are silent (DESIGN CHOICE, safe, log entry 23). It has no body: nothing can be proved of it. -/
opaque overlongNumber : (value width : Nat) → Nat

end Sys2Proof.Config
end

