-- ==== Sys2Proof/Syntax.lean ====
section
/-! DEFINITION. The ten instructions of `spec/opcode_table.json`, one constructor per row (30_encoding.md R51, R52).
The fields are typed at their exact widths, so every term of `Instr` is an instruction of the hardware. -/

namespace Sys2Proof

/-- The address-mode flag `m`: 0 is direct, 1 is one level of indirection (30_encoding.md R49). -/
inductive Mode where
  | direct
  | indirect
  deriving DecidableEq, Repr

/-- The flag as the bit the word holds (30_encoding.md R49). -/
def Mode.bit : Mode → BitVec 1
  | .direct => 0#1
  | .indirect => 1#1

/-- One instruction. `m` is the address-mode flag and `t` the target; the three extended instructions have their
target fixed by the selector, and STP keeps its ignored `m`, because each of them has two encodings
(30_encoding.md R51 to R53). -/
inductive Instr where
  | ban (m : Mode) (t : Target)
  | sub (m : Mode) (t : Target)
  | stc (m : Mode) (t : Target)
  | and (m : Mode) (t : Target)
  | add (m : Mode) (t : Target)
  | ld  (m : Mode) (t : Target)
  | br  (m : Mode) (t : Target)
  | rd  (m : Mode)
  | stp (m : Mode)
  | wrt (m : Mode)
  deriving DecidableEq, Repr

end Sys2Proof
end

