-- ==== Sys2Proof/WellFormed.lean ====
section
/-! DEFINITION. What is well formed on this hardware. A term of `Instr` needs no check of its own: its fields are
typed at their exact widths and no bit of the format is reserved (30_encoding.md R47), so every term is well formed.
What can be ill formed is a WORD given to the decoder (30_encoding.md R54) and an IMAGE given to the loader
(10_state.md R23). Both checks are Bools. -/

namespace Sys2Proof

/-- The word is one of the ten instructions' words: `op` is not 7, or the target is one of the three selectors
(30_encoding.md R54, R55). -/
def legalWord (w : Word) : Bool :=
  w.toNat / 8192 != 7 || (1 ≤ w.toNat % 4096 && w.toNat % 4096 ≤ 3)

/-- The image fits the memory: at most 4096 words (10_state.md R23, 70_reset_and_hazards.md R113, decision D17). -/
def loadableImage (image : List Word) : Bool :=
  decide (image.length ≤ Config.kMaxMemory)

end Sys2Proof
end

