-- ==== Sys2Proof/Machine/Ops.lean ====
section
/-! DEFINITION. The named operations every instruction is written over: the updates of the state, memory with its two
checks (20_memory.md), the two ports (43_extended_io.md R84, R85), taking a fault (60_exceptions.md R100), the end of
the cycle (40_cycle_and_resolver.md R59, R67 to R70) and reset with a loaded image (70_reset_and_hazards.md R111). -/

namespace Sys2Proof.Machine

/-! ### Updates of one field -/

def State.setAcc (s : State) (v : Word) : State := { s with acc := v }
def State.setPc (s : State) (p : Pc) : State := { s with pc := p }
def State.setRun (s : State) (r : RunState) : State := { s with run := r }
def State.setMem (s : State) (m : Memory) : State := { s with mem := m }
def State.setInput (s : State) (items : List InItem) : State := { s with input := items }

/-- `icount <- icount + 1` (40_cycle_and_resolver.md R59, R69). -/
def State.countInstruction (s : State) : State := { s with icount := s.icount + 1#8 }

/-! ### Memory -/

/-- The word of the cell at `a`, on the list of cells. -/
def Memory.read : Memory → Nat → Word
  | [], _ => 0#16
  | (b, w) :: rest, a => if a = b then w else Memory.read rest a

/-- The list of cells after the cell at `a` takes the word `v`; it keeps the canonical form. -/
def Memory.write : Memory → Nat → Word → Memory
  | [], a, v => if v = 0#16 then [] else [(a, v)]
  | (b, w) :: rest, a, v =>
    if a = b then (if v = 0#16 then rest else (a, v) :: rest)
    else if a < b then (if v = 0#16 then (b, w) :: rest else (a, v) :: (b, w) :: rest)
    else (b, w) :: Memory.write rest a v

/-- The cells of an image laid out from address `a` on. -/
def Memory.ofImage (a : Nat) : List Word → Memory
  | [] => []
  | w :: rest => if w = 0#16 then Memory.ofImage (a + 1) rest else (a, w) :: Memory.ofImage (a + 1) rest

/-- The range check, inclusive of 4096 (20_memory.md R32). -/
def rangeOK (a : Nat) : Bool := decide (a ≤ Config.kMaxMemory)

/-- `MemRead(a, 16)`: the loaded-length check, then the whole word (20_memory.md R33, R34). -/
def memRead (stage : Stage) (a : Nat) (s : State) : Except Raise Word :=
  if s.memLen ≤ a then .error (.addressOutOfBounds stage a) else .ok (Memory.read s.mem a)

/-- `MemWrite(a, 16, v)`: the loaded-length check, then the whole word replaced (20_memory.md R33, R35). -/
def memWrite (a : Nat) (v : Word) (s : State) : Except Raise State :=
  if s.memLen ≤ a then .error (.addressOutOfBounds .operand a)
  else .ok (s.setMem (Memory.write s.mem a v))

/-! ### The ports -/

/-- `InTake()` behind `InHasToken()`: the head item and the state with it removed; `none` where the input is empty
(43_extended_io.md R84). -/
def inTake (s : State) : Option (InItem × State) :=
  match s.input with
  | [] => none
  | item :: rest => some (item, s.setInput rest)

/-- `OutEmit(v)`: one item appended (43_extended_io.md R85). -/
def outEmit (v : Word) (s : State) : State := { s with out := s.out ++ [v] }

/-! ### Taking a fault -/

/-- The cause that a raise records (60_exceptions.md R94 to R97). -/
def Raise.cause : Raise → Cause
  | .addressOutOfBounds _ _ => .addressOutOfBounds
  | .illegalOpcode _ => .illegalOpcode
  | .inputExhausted => .inputExhausted
  | .invalidInputToken => .invalidInputToken

/-- Fault entry: the run ends in HALTED_ERROR with the cause, and everything else is left exactly as it is at the
raise (60_exceptions.md R100; DEDUCED, safe, log entry 3). There is no return from it (R104). -/
def State.raise (s : State) (r : Raise) : State := { s with run := .haltedError, cause := r.cause }

/-! ### The end of the cycle -/

/-- The overflow check of step 4 and then the guard of step 5 (40_cycle_and_resolver.md R68 to R70, decisions D1 and
D6; UNVERIFIED, unsafe, log entries 6 and 11). -/
def checkEnd (s : State) : State :=
  if s.memLen ≤ s.pc.toNat then s.setRun .haltedPcOverflow
  else if s.icount = Config.icountMax then s.setRun .haltedTimeout
  else s

/-- What follows a completed execute: the count, the new `pc`, and the checks (40_cycle_and_resolver.md R59, R67).
A taken branch stores its location directly (decision D5; UNVERIFIED, safe, log entry 10). -/
def endCycle (next : Sequencing) (s : State) : State :=
  match next with
  | .seq => checkEnd (s.countInstruction.setPc (s.pc + 1#13))
  | .jump loc => checkEnd (s.countInstruction.setPc (BitVec.ofNat 13 loc))
  | .stop => (s.countInstruction.setPc Config.pcHalt).setRun .haltedStop

/-! ### Reset -/

/-- Reset with a loaded image: the loader's words become the memory, their count becomes MEMLEN, the input is the
whole supplied sequence, and every other field takes its reset value (10_state.md R28, 70_reset_and_hazards.md R111).
An image of more than 4096 words is refused (decision D17; UNVERIFIED, safe, log entry 19). -/
def load (image : List Word) (input : List InItem) : Host.Outcome State Fault Refusal :=
  if loadableImage image then
    .next { State.reset with memLen := image.length, mem := Memory.ofImage 0 image, input := input }
  else .refused .imageTooLong

end Sys2Proof.Machine
end

