-- ==== Sys2Proof/Machine/Operands.lean ====
section
/-! DEFINITION. The operand forms: the address resolver (40_cycle_and_resolver.md R65) and the two shapes in which an
instruction uses it, a location alone and a memory operand (41_arithmetic_load_store.md R72). -/

namespace Sys2Proof.Machine

/-- `Resolve(m, t)`: direct, the target itself; indirect, the whole word of the cell at the target, range-checked, and
never followed further (40_cycle_and_resolver.md R65, R66, decision D3; UNVERIFIED, unsafe, log entry 8). It changes no state. -/
def resolve (m : Mode) (t : Target) (s : State) : Except Raise Nat :=
  if rangeOK t.toNat then
    match m with
    | .direct => .ok t.toNat
    | .indirect =>
      match memRead .pointer t.toNat s with
      | .error r => .error r
      | .ok p =>
        if rangeOK p.toNat then .ok p.toNat else .error (.addressOutOfBounds .pointerValue p.toNat)
  else .error (.addressOutOfBounds .target t.toNat)

/-- Resolve the location first and go on with it, or take the fault (40_cycle_and_resolver.md R64). -/
def withLocation (m : Mode) (t : Target) (s : State) (k : Nat → State) : State :=
  match resolve m t s with
  | .error r => s.raise r
  | .ok loc => k loc

/-- Read the operand at a location and go on with it, or take the fault (41_arithmetic_load_store.md R72). -/
def withCell (loc : Nat) (s : State) (k : Word → State) : State :=
  match memRead .operand loc s with
  | .error r => s.raise r
  | .ok v => k v

/-- Resolve the location, read the operand there and go on with it, or take the first fault
(41_arithmetic_load_store.md R72). -/
def withOperand (m : Mode) (t : Target) (s : State) (k : Word → State) : State :=
  withLocation m t s fun loc => withCell loc s k

end Sys2Proof.Machine
end

