-- ==== Sys2Proof/Machine/Branch.lean ====
section
/-! DEFINITION. The two control transfers: BAN, BR (42_branch.md). Neither accesses the cell at its location (R83). -/

namespace Sys2Proof.Machine

/-- BAN, branch if accumulator negative: the target is resolved whether or not the branch is taken (42_branch.md R80,
40_cycle_and_resolver.md R64, decision D7; UNVERIFIED, safe, log entry 12). -/
def execBan (m : Mode) (t : Target) (s : State) : Host.Outcome State Fault Refusal :=
  .next (withLocation m t s fun loc => endCycle (if accNegative s then .jump loc else .seq) s)

/-- BR, branch always (42_branch.md R81). -/
def execBr (m : Mode) (t : Target) (s : State) : Host.Outcome State Fault Refusal :=
  .next (withLocation m t s fun loc => endCycle (.jump loc) s)

end Sys2Proof.Machine
end

