-- ==== Sys2Proof/Machine/Extended.lean ====
section
/-! DEFINITION. The three extended instructions: RD, STP, WRT (43_extended_io.md). RD and WRT resolve their own
selector, 1 and 3, and discard the location (40_cycle_and_resolver.md R64, decision D7; UNVERIFIED, safe, log entry 12). -/

namespace Sys2Proof.Machine

/-- Take one item into the accumulator: the exhausted port, then the item taken, then the bad token, which has been
consumed (43_extended_io.md R86, decision D8; UNVERIFIED, unsafe, log entry 13). -/
def readItem (s : State) : State :=
  match inTake s with
  | none => s.raise .inputExhausted
  | some (.invalid, taken) => taken.raise .invalidInputToken
  | some (.value v, taken) => endCycle .seq (taken.setAcc v)

/-- RD, read input: resolve first, then take one item (43_extended_io.md R86). -/
def execRd (m : Mode) (s : State) : Host.Outcome State Fault Refusal :=
  .next (withLocation m 1#12 s fun _ => readItem s)

/-- STP, stop: it resolves nothing and ignores its mode flag (43_extended_io.md R87, 30_encoding.md R53). -/
def execStp (_m : Mode) (s : State) : Host.Outcome State Fault Refusal :=
  .next (endCycle .stop s)

/-- WRT, write output: the accumulator is emitted and kept (43_extended_io.md R88). -/
def execWrt (m : Mode) (s : State) : Host.Outcome State Fault Refusal :=
  .next (withLocation m 3#12 s fun _ => endCycle .seq (outEmit s.acc s))

end Sys2Proof.Machine
end

