-- ==== Sys2Proof/Machine/Alu.lean ====
section
/-! DEFINITION. The two's-complement ALU: ADD and SUB modulo 65536 and the bitwise AND (41_arithmetic_load_store.md
R78). There is nothing else in it (R79). -/

namespace Sys2Proof.Machine

/-- `(a + b) mod 65536` (41_arithmetic_load_store.md R76, R78). -/
def aluAdd (a b : Word) : Word := a + b

/-- `(a - b + 65536) mod 65536` (41_arithmetic_load_store.md R73, R78). -/
def aluSub (a b : Word) : Word := a - b

/-- Bit `i` of the result is `a[i] and b[i]` (41_arithmetic_load_store.md R75). -/
def aluAnd (a b : Word) : Word := a &&& b

end Sys2Proof.Machine
end

