-- ==== Sys2Proof/Machine/LoadStore.lean ====
section
/-! DEFINITION. The five instructions with a memory operand: SUB, STC, AND, ADD, LD (41_arithmetic_load_store.md). -/

namespace Sys2Proof.Machine

/-- SUB, subtract (41_arithmetic_load_store.md R73). -/
def execSub (m : Mode) (t : Target) (s : State) : Host.Outcome State Fault Refusal :=
  .next (withOperand m t s fun v => endCycle .seq (s.setAcc (aluSub s.acc v)))

/-- Store the accumulator at a location and then clear it; if the write faults, neither happens
(41_arithmetic_load_store.md R74). -/
def storeAndClear (s : State) (loc : Nat) : State :=
  match memWrite loc s.acc s with
  | .error r => s.raise r
  | .ok stored => endCycle .seq (stored.setAcc 0#16)

/-- STC, store and clear (41_arithmetic_load_store.md R74). -/
def execStc (m : Mode) (t : Target) (s : State) : Host.Outcome State Fault Refusal :=
  .next (withLocation m t s (storeAndClear s))

/-- AND, bitwise and (41_arithmetic_load_store.md R75). -/
def execAnd (m : Mode) (t : Target) (s : State) : Host.Outcome State Fault Refusal :=
  .next (withOperand m t s fun v => endCycle .seq (s.setAcc (aluAnd s.acc v)))

/-- ADD, add (41_arithmetic_load_store.md R76). -/
def execAdd (m : Mode) (t : Target) (s : State) : Host.Outcome State Fault Refusal :=
  .next (withOperand m t s fun v => endCycle .seq (s.setAcc (aluAdd s.acc v)))

/-- LD, load: the operand overwrites the accumulator (41_arithmetic_load_store.md R77). -/
def execLd (m : Mode) (t : Target) (s : State) : Host.Outcome State Fault Refusal :=
  .next (withOperand m t s fun v => endCycle .seq (s.setAcc v))

end Sys2Proof.Machine
end

