-- ==== Sys2Proof/Machine/Dispatch.lean ====
section
/-! DEFINITION. The dispatch of 40_cycle_and_resolver.md R62: one arm per instruction, each one direct call of its
meaning. The word that is no instruction never reaches it (Machine/Fetch.lean). -/

namespace Sys2Proof.Machine

/-- Execute one decoded instruction and end its cycle (40_cycle_and_resolver.md R59 steps 2 to 5, R62). -/
def exec (i : Instr) (s : State) : Host.Outcome State Fault Refusal :=
  match i with
  | .ban m t => Sys2Proof.Machine.execBan m t s
  | .sub m t => Sys2Proof.Machine.execSub m t s
  | .stc m t => Sys2Proof.Machine.execStc m t s
  | .and m t => Sys2Proof.Machine.execAnd m t s
  | .add m t => Sys2Proof.Machine.execAdd m t s
  | .ld m t => Sys2Proof.Machine.execLd m t s
  | .br m t => Sys2Proof.Machine.execBr m t s
  | .rd m => Sys2Proof.Machine.execRd m s
  | .stp m => Sys2Proof.Machine.execStp m s
  | .wrt m => Sys2Proof.Machine.execWrt m s

end Sys2Proof.Machine
end

