-- ==== Sys2Proof/Decode.lean ====
section
/-! DEFINITION. The instruction decoder, total on every 16-bit word, and after it the encoder (30_encoding.md). An
instruction is exactly one word (R46), and memory is addressed in words, so there is no byte order (20_memory.md R30). -/

namespace Sys2Proof

/-- The opcode field, `w[15:13]` (30_encoding.md R47). -/
def opField (w : Word) : BitVec 3 := w.extractLsb' 13 3

/-- The address-mode flag, `w[12]` (30_encoding.md R47, R49). -/
def modeField (w : Word) : Mode :=
  if w.extractLsb' 12 1 = 1#1 then .indirect else .direct

/-- The target field, `w[11:0]` (30_encoding.md R47). -/
def targetField (w : Word) : Target := w.extractLsb' 0 12

/-- Why the decoder refuses a word. -/
inductive DecodeReject where
  /-- opcode `111` with a target that is no selector (30_encoding.md R54) -/
  | illegalExtended (w : Word)
  deriving DecidableEq, Repr

/-- The extended opcode `111`: all 12 bits of the target select the operation (30_encoding.md R52, decision D7). -/
def decodeExtended (w : Word) : Except DecodeReject Instr :=
  if targetField w = 1#12 then .ok (.rd (modeField w))
  else if targetField w = 2#12 then .ok (.stp (modeField w))
  else if targetField w = 3#12 then .ok (.wrt (modeField w))
  else .error (.illegalExtended w)

/-- Decode one word: the eight base opcodes of 30_encoding.md R51, in the table's order, on bits 15, 14 and 13. -/
def decode (w : Word) : Except DecodeReject Instr :=
  match w.getLsbD 15, w.getLsbD 14, w.getLsbD 13 with
  | false, false, false => .ok (.ban (modeField w) (targetField w))
  | false, false, true  => .ok (.sub (modeField w) (targetField w))
  | false, true,  false => .ok (.stc (modeField w) (targetField w))
  | false, true,  true  => .ok (.and (modeField w) (targetField w))
  | true,  false, false => .ok (.add (modeField w) (targetField w))
  | true,  false, true  => .ok (.ld (modeField w) (targetField w))
  | true,  true,  false => .ok (.br (modeField w) (targetField w))
  | true,  true,  true  => decodeExtended w

/-- The three fields put side by side, `op ++ m ++ t` (30_encoding.md R47). -/
def assemble (op : BitVec 3) (m : Mode) (t : Target) : Word := op ++ m.bit ++ t

/-- The word of an instruction (30_encoding.md R51, R52). -/
def encode : Instr → Word
  | .ban m t => assemble 0#3 m t
  | .sub m t => assemble 1#3 m t
  | .stc m t => assemble 2#3 m t
  | .and m t => assemble 3#3 m t
  | .add m t => assemble 4#3 m t
  | .ld m t  => assemble 5#3 m t
  | .br m t  => assemble 6#3 m t
  | .rd m    => assemble 7#3 m 1#12
  | .stp m   => assemble 7#3 m 2#12
  | .wrt m   => assemble 7#3 m 3#12

/-- The one word of an instruction given as a number of `nbits` bits, bit 0 the least significant (30_encoding.md R46:
an instruction has no bits beyond its 16). -/
def tableWord (nbits w : Nat) : Word := BitVec.ofNat 16 (w % 2 ^ nbits)

/-- What the decoder reads from an instruction given as a number; `none` where it refuses the word. -/
def decodeTableWord (nbits w : Nat) : Option Instr :=
  match decode (tableWord nbits w) with
  | .ok i => some i
  | .error _ => none

end Sys2Proof
end

