-- ==== Sys2Proof/Machine/Fetch.lean ====
section
/-! DEFINITION. What a step does around the meaning of an instruction: fetching and decoding it
(40_cycle_and_resolver.md R60 to R63), taking a fault found there, and resting once the run has ended (R71). -/

namespace Sys2Proof.Machine

/-- A cycle exists only in RUNNING (10_state.md R20, 40_cycle_and_resolver.md R59). -/
def cycleExists (s : State) : Bool := s.run = .running

/-- Fetch the word at `pc` under the loaded-length check and decode it; a word that is no instruction is an
IllegalOpcode, found before anything is resolved (40_cycle_and_resolver.md R60 to R63, 43_extended_io.md R89). -/
def fetchInstr (s : State) : Except Raise Instr :=
  match memRead .fetch s.pc.toNat s with
  | .error r => .error r
  | .ok w =>
    match decode w with
    | .ok i => .ok i
    | .error (.illegalExtended bad) => .error (.illegalOpcode bad)

/-- The fault of a cycle that found no instruction to run (60_exceptions.md R100). -/
def takeFault (r : Raise) (s : State) : Host.Outcome State Fault Refusal := .next (s.raise r)

/-- A halted machine: no cycle happens and no state changes (40_cycle_and_resolver.md R71; DEDUCED, unsafe, log entry 4). -/
def idle (s : State) : Host.Outcome State Fault Refusal := .next s

end Sys2Proof.Machine
end

