-- ==== Sys2Proof/Machine/Step.lean ====
section
/-! DEFINITION. One step of the machine: one whole cycle while the run goes on (40_cycle_and_resolver.md R59), and no
change once it has ended (R71). -/

namespace Sys2Proof.Machine

/-- One step (40_cycle_and_resolver.md R59, R71). -/
def step (s : State) : Host.Outcome State Fault Refusal :=
  if cycleExists s then
    match fetchInstr s with
    | .ok i => exec i s
    | .error r => takeFault r s
  else idle s

/-- `s` with the instruction numbered `w` in the cell at `pc`, that cell loaded, and the run going on, so that the next
step runs exactly it. The spec's program comes from the loader before the run; this stands for that load
(70_reset_and_hazards.md R111, R113; DESIGN CHOICE, unsafe, log entry 2). It is for a `pc` below 4096, where a cell can be. -/
def State.withFetchWord (s : State) (nbits w : Nat) : State :=
  { s with
    run := .running
    cause := .none
    memLen := max s.memLen (s.pc.toNat + 1)
    mem := Memory.write s.mem s.pc.toNat (tableWord nbits w) }

end Sys2Proof.Machine
end

