-- ==== Sys2Proof/Machine/Output.lean ====
section
/-! DEFINITION. Words written down: the BitCodec of 00_scope.md R8 and the text of one output line
(43_extended_io.md R90). Both are pure functions that no instruction uses; `out` keeps the emitted word itself. -/

namespace Sys2Proof.Machine

/-- The low `width` digits of a number, most significant first (00_scope.md R7, R8). -/
def binaryDigits (value : Nat) : Nat → List Char
  | 0 => []
  | k + 1 => (if value.testBit k then '1' else '0') :: binaryDigits value k

/-- `ToBitString(value, width)`; any other width is the source's fatal configuration error, unreachable in the hardware
(00_scope.md R8, 93_implementation_defined.md U4). For a value of `2 ^ width` or more R7 and R8 are silent: the `width`
digits are then those of a free value (DESIGN CHOICE, safe, log entry 23). -/
def toBitString (value width : Nat) : Option (List Char) :=
  if width = 8 ∨ width = 12 ∨ width = 16 then
    some (binaryDigits (if value < 2 ^ width then value else Config.overlongNumber value width) width)
  else none

/-- The value of a digit string read on from the value `sofar` of the digits before it. -/
def readDigits (sofar : Nat) : List Char → Option Nat
  | [] => some sofar
  | c :: rest =>
    if c = '0' then readDigits (2 * sofar) rest
    else if c = '1' then readDigits (2 * sofar + 1) rest
    else none

/-- `ToInteger(bits)`: base 2; a character outside 0 and 1 is the source's fatal path, unreachable in the hardware
(00_scope.md R8, 93_implementation_defined.md U3). The string of no digits, of which R8 says nothing, is refused with
them (DESIGN CHOICE, safe, log entry 23). -/
def toInteger (bits : List Char) : Option Nat := if bits = [] then none else readDigits 0 bits

/-- The decimal numeral of a natural number, with `fuel` more digits to come at most, before the digits `after`. -/
def decimalOn : Nat → Nat → List Char → List Char
  | 0, _, after => after
  | fuel + 1, n, after =>
    if n < 10 then Char.ofNat (48 + n) :: after
    else decimalOn fuel (n / 10) (Char.ofNat (48 + n % 10) :: after)

/-- `decimal(n)`: the decimal numeral of the integer, with a leading minus when it is negative and no plus
(43_extended_io.md R90). A natural number has at most as many digits as one more than itself, so the fuel suffices. -/
def decimal (n : Int) : List Char :=
  if n < 0 then '-' :: decimalOn (n.natAbs + 1) n.natAbs [] else decimalOn (n.natAbs + 1) n.natAbs []

/-- `field8(s)`: padded with spaces on the left to 8 characters (43_extended_io.md R90, decision D10; UNVERIFIED, unsafe,
log entry 15). No numeral of a word is longer (R90: "never overfull"); a longer text stays as it is (DESIGN
CHOICE, unsafe, log entry 24). -/
def field8 (text : List Char) : List Char := List.replicate (8 - text.length) ' ' ++ text

/-- `line(v)`: the text of the line that WRT emits for the word `v` (43_extended_io.md R90). -/
def outLine (v : Word) : List Char := field8 (decimal (toSigned16 v)) ++ ' ' :: binaryDigits v.toNat 16

end Sys2Proof.Machine
end

