-- ==== Sys2Proof/Machine/Ending.lean ====
section
/-! DEFINITION. What the host can tell of a run that has ended: the seven endings (60_exceptions.md R93, R110) and the
numbers of the two enumerations (10_state.md R20, R21, decision D11; UNVERIFIED, unsafe, log entry 16). -/

namespace Sys2Proof.Machine

/-- The seven ways a run ends (60_exceptions.md R93). -/
inductive Ending where
  | normalStop
  | pcOverflow
  | timeout
  | addressOutOfBounds
  | illegalOpcode
  | inputExhausted
  | invalidInputToken
  deriving DecidableEq, Repr

/-- The ending that `run` and `cause` show: the seven rows of 60_exceptions.md R93; `none` while the run goes on. Any other
pair, an error without a cause or a cause without an error, occurs in no run (10_state.md R21) and is no ending. -/
def State.ending (s : State) : Option Ending :=
  match s.run, s.cause with
  | .haltedStop, .none => some .normalStop
  | .haltedPcOverflow, .none => some .pcOverflow
  | .haltedTimeout, .none => some .timeout
  | .haltedError, .addressOutOfBounds => some .addressOutOfBounds
  | .haltedError, .illegalOpcode => some .illegalOpcode
  | .haltedError, .inputExhausted => some .inputExhausted
  | .haltedError, .invalidInputToken => some .invalidInputToken
  | _, _ => none

/-- The number of a run state, where one is needed (10_state.md R20). -/
def RunState.code : RunState → BitVec 3
  | .running => 0#3
  | .haltedStop => 1#3
  | .haltedPcOverflow => 2#3
  | .haltedTimeout => 3#3
  | .haltedError => 4#3

/-- The number of a cause, where one is needed (10_state.md R21). -/
def Cause.code : Cause → Nat
  | .none => 0
  | .addressOutOfBounds => 1
  | .illegalOpcode => 2
  | .inputExhausted => 3
  | .invalidInputToken => 4

end Sys2Proof.Machine
end

