-- ==== Sys2Proof/Safety.lean ====
section
/-! DEFINITION. What counts as a safe state and a safe run, in the terms the claims use. -/

namespace Sys2Proof.Machine

/-- The place a cycle may stand at: the cell at `pc` is loaded, or the program is empty and `pc` is 0
(10_state.md R18). -/
abbrev State.pcAtCell (s : State) : Prop :=
  s.pc.toNat < s.memLen ∨ (s.pc = 0#13 ∧ s.memLen = 0)

/-- The invariant of every run. -/
structure State.Inv (s : State) : Prop where
  /-- MEMLEN is at most 4096 (10_state.md R23) -/
  lenBound : s.memLen ≤ 4096
  /-- the list of cells is in its one canonical form -/
  memCanonical : Memory.wf s.mem
  /-- no cell outside the loaded words is listed (10_state.md R24) -/
  memInside : ∀ c ∈ s.mem, c.1 < s.memLen
  /-- a cause stands exactly where the run ended in an error (10_state.md R21) -/
  causeOfError : s.cause ≠ .none ↔ s.run = .haltedError
  /-- the range of the counter (10_state.md R22) -/
  countBound : s.icount.toNat ≤ 128
  /-- where a run that goes on stands, and that its budget is not used up (10_state.md R18, 40_cycle_and_resolver.md R69) -/
  running : s.run = .running → s.pcAtCell ∧ s.icount.toNat < 128
  /-- a faulting instruction keeps its address and is not counted (60_exceptions.md R103, 10_state.md R22) -/
  atError : s.run = .haltedError → s.pcAtCell ∧ s.icount.toNat < 128
  /-- the sentinel of a normal stop (60_exceptions.md R101) -/
  atStop : s.run = .haltedStop → s.pc.toNat = 7777
  /-- the final `pc` of an overflow is the out-of-range value itself (40_cycle_and_resolver.md R68) -/
  atOverflow : s.run = .haltedPcOverflow → s.memLen ≤ s.pc.toNat ∧ s.pc.toNat ≤ 4096
  /-- a timeout comes at 128 instructions, at the address of the one that would have been next (R69) -/
  atTimeout : s.run = .haltedTimeout → s.pc.toNat < s.memLen ∧ s.icount.toNat = 128

/-- `raise` with a cause, written out (60_exceptions.md R100). -/
abbrev State.faulted (s : State) (c : Cause) : State := { s with run := .haltedError, cause := c }

/-- The run state the checks of steps 4 and 5 leave, on plain numbers: the new `pc` and the new count
(40_cycle_and_resolver.md R59, R68, R69; decisions D1 and D6). -/
def runAfter (memLen pc icount : Nat) : RunState :=
  if memLen ≤ pc then .haltedPcOverflow else if icount = 128 then .haltedTimeout else .running

/-- A cycle about to run an instruction: the invariant holds, the run goes on, and the cell at `pc` is loaded. -/
abbrev State.atInstruction (s : State) : Prop :=
  s.Inv ∧ s.run = .running ∧ s.pc.toNat < s.memLen

/-- Read on a string of decimal digits from the value `sofar` of the digits before it. -/
def readDecimalDigits (sofar : Nat) : List Char → Option Nat
  | [] => some sofar
  | c :: rest =>
    if '0' ≤ c ∧ c ≤ '9' then readDecimalDigits (10 * sofar + (c.toNat - '0'.toNat)) rest else none

/-- The usual decimal numeral of a natural number read back: at least one digit, and no leading 0 but the numeral 0. -/
def readNatural (digits : List Char) : Option Nat :=
  if digits = [] ∨ (digits.head? = some '0' ∧ digits ≠ ['0']) then none else readDecimalDigits 0 digits

/-- The usual decimal numeral of an integer read back, a minus in front of a positive number alone
(43_extended_io.md R90 speaks of "the usual decimal numeral"); no other spelling of the number is read. -/
def readNumeral : List Char → Option Int
  | [] => none
  | c :: rest =>
    if c = '-' then
      (readNatural rest).bind fun n => if n = 0 then none else some (-(n : Int))
    else (readNatural (c :: rest)).map fun n => (n : Int)

/-- A run ended well only by STP (70_reset_and_hazards.md R114). -/
abbrev State.endedWell (s : State) : Prop := s.run = .haltedStop

end Sys2Proof.Machine
end

