-- ==== Sys2Proof/Certificates/Slice0/Obligations.lean ====
section
/-! DEFINITION. The statements about the machine, from the numbered rules of spec/. A statement that rests on a decision
the spec marks as its own (D<n> of 92_eei_decisions.md), on an inference it marks `[derived]`, or on a choice of the
model (a log entry) says so in its docstring. -/

open Sys2Proof Sys2Proof.Machine

/-! ### Encoding -/

/-- The three fields of a word on its number, and the word back from them (30_encoding.md R47, R48; R48 is an inference
the spec marks: "[derived: from rule R47 and `00_scope.md` rule R6]"). -/
def Obligations.FieldsOfAWord : Prop :=
  ∀ w : Word,
    (opField w).toNat = w.toNat / 8192 ∧
    (modeField w).bit.toNat = w.toNat / 4096 % 2 ∧
    (targetField w).toNat = w.toNat % 4096 ∧
    w.toNat = (opField w).toNat * 8192 + (modeField w).bit.toNat * 4096 + (targetField w).toNat

/-- The base opcodes (30_encoding.md R51): each of the eight values of the opcode field selects its own operation. -/
def Obligations.BaseOpcodesDecode : Prop :=
  ∀ w : Word,
    (opField w = 0#3 → decode w = .ok (.ban (modeField w) (targetField w))) ∧
    (opField w = 1#3 → decode w = .ok (.sub (modeField w) (targetField w))) ∧
    (opField w = 2#3 → decode w = .ok (.stc (modeField w) (targetField w))) ∧
    (opField w = 3#3 → decode w = .ok (.and (modeField w) (targetField w))) ∧
    (opField w = 4#3 → decode w = .ok (.add (modeField w) (targetField w))) ∧
    (opField w = 5#3 → decode w = .ok (.ld (modeField w) (targetField w))) ∧
    (opField w = 6#3 → decode w = .ok (.br (modeField w) (targetField w))) ∧
    (opField w = 7#3 → ∀ i, decode w = .ok i → ∃ m, i = .rd m ∨ i = .stp m ∨ i = .wrt m)

/-- The extended opcode dispatches on all 12 bits of the target, the mode flag being no part of the selector: the target
1 and no other is RD, 2 and no other STP, 3 and no other WRT, each with the mode flag of the word (30_encoding.md R52,
R53; that all 12 bits count is the spec's decision D7). -/
def Obligations.ExtendedSelectorsDecode : Prop :=
  ∀ w : Word, opField w = 7#3 →
    ∀ m : Mode,
      (decode w = .ok (.rd m) ↔ targetField w = 1#12 ∧ m = modeField w) ∧
      (decode w = .ok (.stp m) ↔ targetField w = 2#12 ∧ m = modeField w) ∧
      (decode w = .ok (.wrt m) ↔ targetField w = 3#12 ∧ m = modeField w)

/-- The decoder refuses exactly the words of 30_encoding.md R54, by name, and they are exactly the words that are not
legal (R55, which the spec marks as derived). -/
def Obligations.IllegalWordsAreRefused : Prop :=
  ∀ w : Word,
    (decode w = .error (.illegalExtended w) ↔
      opField w = 7#3 ∧ targetField w ≠ 1#12 ∧ targetField w ≠ 2#12 ∧ targetField w ≠ 3#12) ∧
    ((∃ i, decode w = .ok i) ↔ legalWord w = true)

/-- Every instruction, with every operand at every value, decodes from its own word. -/
def Obligations.DecodeOfEncodeIsIdentity : Prop :=
  ∀ i : Instr, decode (encode i) = .ok i

/-- The other direction: a word that decodes is the word of what it decodes to, so no bit of it is dropped. -/
def Obligations.EncodeOfDecodeIsIdentity : Prop :=
  ∀ (w : Word) (i : Instr), decode w = .ok i → encode i = w

/-- Words written out bit by bit from 30_encoding.md R51, R52 and R54 decode to what they stand for. -/
def Obligations.WrittenWordsDecode : Prop :=
  decode 0b0000000000000001#16 = .ok (.ban .direct 1#12) ∧
  decode 0b0010000000001010#16 = .ok (.sub .direct 10#12) ∧
  decode 0b0101000000001010#16 = .ok (.stc .indirect 10#12) ∧
  decode 0b1011000000001000#16 = .ok (.ld .indirect 8#12) ∧
  decode 0b1101111111111111#16 = .ok (.br .indirect 4095#12) ∧
  decode 0b1110000000000001#16 = .ok (.rd .direct) ∧
  decode 0b1111000000000010#16 = .ok (.stp .indirect) ∧
  decode 0b1110000000000011#16 = .ok (.wrt .direct) ∧
  decode 0b1110000000010001#16 = .error (.illegalExtended 0b1110000000010001#16)

/-! ### The step -/

/-- When the word at the program counter decodes to an instruction, the step is `exec` of it at the same state; nothing
is added around it, since `exec` itself ends the cycle (40_cycle_and_resolver.md R59 to R62; log entry 5). -/
def Obligations.StepRunsTheDecodedInstruction : Prop :=
  ∀ (s : State) (i : Instr), s.run = .running → s.pc.toNat < s.memLen →
    decode (Memory.read s.mem s.pc.toNat) = .ok i → step s = exec i s

/-- The instruction placed by `withFetchWord` is the one the next step runs, for every `pc` at which a cell can be
(log entry 2). -/
def Obligations.WithFetchWordIsRunNext : Prop :=
  ∀ (s : State) (w : Word) (i : Instr), Memory.wf s.mem → s.pc.toNat < 4096 → decode w = .ok i →
    step (s.withFetchWord 16 w.toNat) = exec i (s.withFetchWord 16 w.toNat)

/-- A word that is no instruction takes IllegalOpcode and changes nothing else, whatever its mode flag: the resolver is
not called (43_extended_io.md R89; that the selector is examined first is the spec's decision D7). -/
def Obligations.IllegalWordTakesIllegalOpcode : Prop :=
  ∀ s : State, s.run = .running → s.pc.toNat < s.memLen →
    opField (Memory.read s.mem s.pc.toNat) = 7#3 →
    targetField (Memory.read s.mem s.pc.toNat) ≠ 1#12 →
    targetField (Memory.read s.mem s.pc.toNat) ≠ 2#12 →
    targetField (Memory.read s.mem s.pc.toNat) ≠ 3#12 →
    step s = .next (s.faulted .illegalOpcode)

/-- A fetch outside the loaded words takes AddressOutOfBounds (40_cycle_and_resolver.md R60, decision D14), and so the
first step of an empty program does. -/
def Obligations.FetchOutsideTheProgramFaults : Prop :=
  (∀ s : State, s.run = .running → s.memLen ≤ s.pc.toNat →
    step s = .next (s.faulted .addressOutOfBounds)) ∧
  step State.reset = .next (State.reset.faulted .addressOutOfBounds)

/-- Halted states are absorbing (40_cycle_and_resolver.md R71, decision D19). That a step of a halted machine answers
the same state is the model's choice (log entry 4). -/
def Obligations.HaltedStatesAreAbsorbing : Prop :=
  ∀ s : State, s.run ≠ .running → ∀ n : Nat, Host.Core.run Sys2Proof.core n s = .next s

/-- Every step answers a next state: nothing of the spec stops the model, "there is ... no state in which the core is
stuck without being halted" (70_reset_and_hazards.md R114, marked derived). Two parts are the model's choice and no words of
the spec: that a fault is a next state (log entry 3), and that a step of a halted machine, of which the spec has no cycle,
answers next at all (log entry 4). -/
def Obligations.EveryStepAnswersNext : Prop :=
  ∀ s : State, ∃ u, step s = .next u

/-! ### Memory and the resolver -/

/-- `MemRead` (20_memory.md R34). -/
def Obligations.ReadUnderTheLengthCheck : Prop :=
  ∀ (stage : Stage) (a : Nat) (s : State),
    (s.memLen ≤ a → memRead stage a s = .error (.addressOutOfBounds stage a)) ∧
    (a < s.memLen → memRead stage a s = .ok (Memory.read s.mem a))

/-- `MemWrite` (20_memory.md R35): the whole word replaced and nothing else; a faulting write changes no cell. -/
def Obligations.WriteReplacesOneWord : Prop :=
  ∀ (a : Nat) (v : Word) (s : State), s.Inv →
    (s.memLen ≤ a → memWrite a v s = .error (.addressOutOfBounds .operand a)) ∧
    (a < s.memLen → ∃ u, memWrite a v s = .ok u ∧ u = { s with mem := u.mem } ∧
      Memory.read u.mem a = v ∧ ∀ b, b ≠ a → Memory.read u.mem b = Memory.read s.mem b)

/-- Address 4096 passes the range check and no access there is allowed; 4097 fails it (20_memory.md R32, R33; that the
access is a guaranteed fault is the spec's decision D2). -/
def Obligations.InclusiveBoundIsNoCell : Prop :=
  rangeOK 4096 = true ∧ rangeOK 4097 = false ∧
  ∀ (s : State) (stage : Stage) (v : Word), s.Inv →
    memRead stage 4096 s = .error (.addressOutOfBounds stage 4096) ∧
    memWrite 4096 v s = .error (.addressOutOfBounds .operand 4096)

/-- `Resolve` (40_cycle_and_resolver.md R65, R66): every answer it can give. That the pointer is the whole word is the
spec's decision D3. -/
def Obligations.ResolveAnswers : Prop :=
  ∀ (t : Target) (s : State),
    resolve .direct t s = .ok t.toNat ∧
    (s.memLen ≤ t.toNat → resolve .indirect t s = .error (.addressOutOfBounds .pointer t.toNat)) ∧
    (t.toNat < s.memLen → ∀ p, p = (Memory.read s.mem t.toNat).toNat →
      (p ≤ 4096 → resolve .indirect t s = .ok p) ∧
      (4096 < p → resolve .indirect t s = .error (.addressOutOfBounds .pointerValue p)))

/-! ### The end of the cycle -/

/-- Steps 4 and 5 on plain numbers, for each sequencing outcome (40_cycle_and_resolver.md R59, R67 to R69). The
comparisons and the count are the spec's decisions D1 and D6, storing the location directly is D5. -/
def Obligations.EndOfCycleOnNumbers : Prop :=
  ∀ s : State, s.atInstruction →
    endCycle .seq s = { s with
      pc := BitVec.ofNat 13 (s.pc.toNat + 1)
      icount := BitVec.ofNat 8 (s.icount.toNat + 1)
      run := runAfter s.memLen (s.pc.toNat + 1) (s.icount.toNat + 1) } ∧
    (∀ loc, loc ≤ 4096 → endCycle (.jump loc) s = { s with
      pc := BitVec.ofNat 13 loc
      icount := BitVec.ofNat 8 (s.icount.toNat + 1)
      run := runAfter s.memLen loc (s.icount.toNat + 1) }) ∧
    endCycle .stop s = { s with
      pc := 7777#13
      icount := BitVec.ofNat 8 (s.icount.toNat + 1)
      run := .haltedStop }

/-- The source's own scheme gives the same `pc`: a branch stores its location minus 1, STP stores 7777, and whatever is
not 7777 is then incremented (10_state.md R17; that the hardware stores the location directly is decision D5). -/
def Obligations.SourceIncrementSchemeAgrees : Prop :=
  ∀ (s : State) (n : Sequencing), s.atInstruction → (∀ loc, n = .jump loc → loc ≤ 4096) →
    ∀ stored : Int, stored = (match n with
        | .seq => (s.pc.toNat : Int)
        | .jump loc => (loc : Int) - 1
        | .stop => 7777) →
      ((endCycle n s).pc.toNat : Int) = (if stored = 7777 then 7777 else stored + 1) ∧
      ((endCycle n s).run = .haltedStop ↔ stored = 7777)

/-- The 128th instruction ends the run whatever it is, and STOP and PC_OVERFLOW win over TIMEOUT
(40_cycle_and_resolver.md R69, R70, which the spec marks as derived; decision D6). -/
def Obligations.LastInstructionEndsTheRun : Prop :=
  ∀ (i : Instr) (s u : State), s.atInstruction → s.icount.toNat = 127 → exec i s = .next u →
    u.run ≠ .running ∧
    (∀ m, i = .stp m → u.run = .haltedStop) ∧
    (u.run = .haltedTimeout → u.pc.toNat < u.memLen) ∧
    (u.run = .haltedError → u.icount.toNat = 127)

/-! ### The instructions -/

/-- SUB (41_arithmetic_load_store.md R73): its encoding, its result, its faults. -/
def Obligations.SubSubtractsModulo65536 : Prop :=
  ∀ (m : Mode) (t : Target) (s : State),
    (encode (.sub m t)).toNat = 0x2000 + m.bit.toNat * 4096 + t.toNat ∧
    (∀ loc v, resolve m t s = .ok loc → memRead .operand loc s = .ok v →
      exec (.sub m t) s = .next (endCycle .seq
        { s with acc := BitVec.ofInt 16 (((s.acc.toNat : Int) - v.toNat + 65536) % 65536) })) ∧
    (∀ r, resolve m t s = .error r → exec (.sub m t) s = .next (s.faulted r.cause)) ∧
    (∀ loc r, resolve m t s = .ok loc → memRead .operand loc s = .error r →
      exec (.sub m t) s = .next (s.faulted r.cause))

/-- STC (41_arithmetic_load_store.md R74): the accumulator is stored whole at the location and then cleared; if the
write faults, neither happens. -/
def Obligations.StcStoresAndClears : Prop :=
  ∀ (m : Mode) (t : Target) (s : State), s.Inv →
    (encode (.stc m t)).toNat = 0x4000 + m.bit.toNat * 4096 + t.toNat ∧
    (∀ loc, resolve m t s = .ok loc → loc < s.memLen →
      ∃ mem', exec (.stc m t) s = .next (endCycle .seq { s with mem := mem', acc := 0#16 }) ∧
        Memory.read mem' loc = s.acc ∧ ∀ a, a ≠ loc → Memory.read mem' a = Memory.read s.mem a) ∧
    (∀ r, resolve m t s = .error r → exec (.stc m t) s = .next (s.faulted r.cause)) ∧
    (∀ loc, resolve m t s = .ok loc → s.memLen ≤ loc →
      exec (.stc m t) s = .next (s.faulted .addressOutOfBounds))

/-- AND (41_arithmetic_load_store.md R75): bit i of the result is the conjunction of the two bits i. -/
def Obligations.AndIsBitwise : Prop :=
  ∀ (m : Mode) (t : Target) (s : State),
    (encode (.and m t)).toNat = 0x6000 + m.bit.toNat * 4096 + t.toNat ∧
    (∀ loc v, resolve m t s = .ok loc → memRead .operand loc s = .ok v →
      ∃ r : Word, exec (.and m t) s = .next (endCycle .seq { s with acc := r }) ∧
        ∀ i, r.getLsbD i = (s.acc.getLsbD i && v.getLsbD i)) ∧
    (∀ r, resolve m t s = .error r → exec (.and m t) s = .next (s.faulted r.cause)) ∧
    (∀ loc r, resolve m t s = .ok loc → memRead .operand loc s = .error r →
      exec (.and m t) s = .next (s.faulted r.cause))

/-- ADD (41_arithmetic_load_store.md R76): its encoding, its result, its faults. -/
def Obligations.AddAddsModulo65536 : Prop :=
  ∀ (m : Mode) (t : Target) (s : State),
    (encode (.add m t)).toNat = 0x8000 + m.bit.toNat * 4096 + t.toNat ∧
    (∀ loc v, resolve m t s = .ok loc → memRead .operand loc s = .ok v →
      exec (.add m t) s = .next (endCycle .seq
        { s with acc := BitVec.ofNat 16 ((s.acc.toNat + v.toNat) % 65536) })) ∧
    (∀ r, resolve m t s = .error r → exec (.add m t) s = .next (s.faulted r.cause)) ∧
    (∀ loc r, resolve m t s = .ok loc → memRead .operand loc s = .error r →
      exec (.add m t) s = .next (s.faulted r.cause))

/-- LD (41_arithmetic_load_store.md R77): the operand overwrites the accumulator, whatever it held. -/
def Obligations.LdLoadsTheOperand : Prop :=
  ∀ (m : Mode) (t : Target) (s : State),
    (encode (.ld m t)).toNat = 0xA000 + m.bit.toNat * 4096 + t.toNat ∧
    (∀ loc v, resolve m t s = .ok loc → memRead .operand loc s = .ok v →
      exec (.ld m t) s = .next (endCycle .seq { s with acc := v })) ∧
    (∀ r, resolve m t s = .error r → exec (.ld m t) s = .next (s.faulted r.cause)) ∧
    (∀ loc r, resolve m t s = .ok loc → memRead .operand loc s = .error r →
      exec (.ld m t) s = .next (s.faulted r.cause))

/-- The three fault conditions of 41_arithmetic_load_store.md R72 for the five memory-operand instructions, on the
memory itself, and that nothing else makes them fault. The whole pointer word is decision D3, the fault at a missing
cell D2. -/
def Obligations.MemoryOperandFaults : Prop :=
  ∀ (m : Mode) (t : Target) (s : State) (i : Instr) (p : Nat),
    i ∈ [Instr.sub m t, .stc m t, .and m t, .add m t, .ld m t] →
    p = (Memory.read s.mem t.toNat).toNat →
    (m = .indirect → s.memLen ≤ t.toNat → exec i s = .next (s.faulted .addressOutOfBounds)) ∧
    (m = .indirect → 4096 < p → exec i s = .next (s.faulted .addressOutOfBounds)) ∧
    (m = .indirect → s.memLen ≤ p → exec i s = .next (s.faulted .addressOutOfBounds)) ∧
    (m = .direct → s.memLen ≤ t.toNat → exec i s = .next (s.faulted .addressOutOfBounds)) ∧
    ((m = .direct ∧ t.toNat < s.memLen) ∨
        (m = .indirect ∧ t.toNat < s.memLen ∧ p ≤ 4096 ∧ p < s.memLen) →
      ∃ acc' mem', exec i s = .next (endCycle .seq { s with acc := acc', mem := mem' }))

/-- BAN (42_branch.md R80): it branches exactly when the accumulator is 32768 or more; its target is resolved, and can
fault, whether or not it branches (the spec's decision D7). -/
def Obligations.BanBranchesWhenNegative : Prop :=
  ∀ (m : Mode) (t : Target) (s : State),
    (encode (.ban m t)).toNat = m.bit.toNat * 4096 + t.toNat ∧
    (∀ loc, resolve m t s = .ok loc →
      (32768 ≤ s.acc.toNat → exec (.ban m t) s = .next (endCycle (.jump loc) s)) ∧
      (s.acc.toNat < 32768 → exec (.ban m t) s = .next (endCycle .seq s))) ∧
    (∀ r, resolve m t s = .error r → exec (.ban m t) s = .next (s.faulted r.cause))

/-- BR (42_branch.md R81): it always branches to the resolved location. -/
def Obligations.BrAlwaysBranches : Prop :=
  ∀ (m : Mode) (t : Target) (s : State),
    (encode (.br m t)).toNat = 0xC000 + m.bit.toNat * 4096 + t.toNat ∧
    (∀ loc, resolve m t s = .ok loc → exec (.br m t) s = .next (endCycle (.jump loc) s)) ∧
    (∀ r, resolve m t s = .error r → exec (.br m t) s = .next (s.faulted r.cause))

/-- What each value of a branch target does, for BR and for a taken BAN (42_branch.md R83, which the spec marks as
derived; the comparison with MEMLEN is decision D1, the guard D6). -/
def Obligations.BranchTargetRange : Prop :=
  ∀ (m : Mode) (t : Target) (s : State) (i : Instr), s.atInstruction →
    (i = .br m t ∨ (i = .ban m t ∧ 32768 ≤ s.acc.toNat)) →
    (∀ loc, resolve m t s = .ok loc → loc ≤ 4096 ∧
      exec i s = .next { s with
        pc := BitVec.ofNat 13 loc
        icount := BitVec.ofNat 8 (s.icount.toNat + 1)
        run := if s.memLen ≤ loc then .haltedPcOverflow
          else if s.icount.toNat + 1 = 128 then .haltedTimeout else .running }) ∧
    (m = .indirect → t.toNat < s.memLen → 4096 < (Memory.read s.mem t.toNat).toNat →
      exec i s = .next (s.faulted .addressOutOfBounds))

/-- RD (43_extended_io.md R86): the checks in their order, and what each leaves. The order and the consumed bad token
are the spec's decision D8, the discarded resolution of cell 1 is D7. -/
def Obligations.RdReadsOneItem : Prop :=
  ∀ (m : Mode) (s : State),
    (encode (.rd m)).toNat = 0xE001 + m.bit.toNat * 4096 ∧
    (∀ r, resolve m 1#12 s = .error r → exec (.rd m) s = .next (s.faulted r.cause)) ∧
    (∀ loc, resolve m 1#12 s = .ok loc →
      (s.input = [] → exec (.rd m) s = .next (s.faulted .inputExhausted)) ∧
      (∀ later, s.input = .invalid :: later →
        exec (.rd m) s = .next (State.faulted { s with input := later } .invalidInputToken)) ∧
      (∀ v later, s.input = .value v :: later →
        exec (.rd m) s = .next (endCycle .seq { s with acc := v, input := later })))

/-- STP (43_extended_io.md R87): the normal stop, whatever its mode flag and whatever the memory holds. -/
def Obligations.StpStopsTheRun : Prop :=
  ∀ (m : Mode) (s : State),
    (encode (.stp m)).toNat = 0xE002 + m.bit.toNat * 4096 ∧
    exec (.stp m) s = .next { s with pc := 7777#13, run := .haltedStop, icount := s.icount + 1#8 }

/-- WRT (43_extended_io.md R88): the accumulator is appended to the output and kept. The discarded resolution of cell 3
is the spec's decision D7. -/
def Obligations.WrtAppendsTheAccumulator : Prop :=
  ∀ (m : Mode) (s : State),
    (encode (.wrt m)).toNat = 0xE003 + m.bit.toNat * 4096 ∧
    (∀ loc, resolve m 3#12 s = .ok loc →
      exec (.wrt m) s = .next (endCycle .seq { s with out := s.out ++ [s.acc] })) ∧
    (∀ r, resolve m 3#12 s = .error r → exec (.wrt m) s = .next (s.faulted r.cause))

/-- With `m == 0` RD and WRT cannot fault on an address: each completes on every memory, RD on any value at the head of
the input (43_extended_io.md R86, R88). -/
def Obligations.DirectInputOutputNeedsNoCell : Prop :=
  ∀ s : State,
    (∀ v later, s.input = .value v :: later →
      exec (.rd .direct) s = .next (endCycle .seq { s with acc := v, input := later })) ∧
    exec (.wrt .direct) s = .next (endCycle .seq { s with out := s.out ++ [s.acc] })

/-! ### Frames -/

/-- SUB, AND, ADD and LD write the accumulator and, through the cycle, `pc`, `icount` and `run`; a fault writes `run`
and `cause` alone. Every cell and everything else is unchanged. -/
def Obligations.FrameOfAccumulatorInstructions : Prop :=
  ∀ (m : Mode) (t : Target) (s u : State) (i : Instr), s.run = .running →
    i ∈ [Instr.sub m t, .and m t, .add m t, .ld m t] → exec i s = .next u →
    (∀ a, Memory.read u.mem a = Memory.read s.mem a) ∧
    u.memLen = s.memLen ∧ u.input = s.input ∧ u.out = s.out ∧
    (u.run ≠ .haltedError → u.cause = s.cause ∧ u.icount = s.icount + 1#8) ∧
    (u.run = .haltedError → u.acc = s.acc ∧ u.pc = s.pc ∧ u.icount = s.icount)

/-- STC writes the accumulator, the one cell at its resolved location and, through the cycle, `pc`, `icount` and `run`;
a fault writes `run` and `cause` alone. -/
def Obligations.FrameOfStc : Prop :=
  ∀ (m : Mode) (t : Target) (s u : State), s.run = .running → exec (.stc m t) s = .next u →
    (∀ loc, resolve m t s = .ok loc → ∀ a, a ≠ loc → Memory.read u.mem a = Memory.read s.mem a) ∧
    (∀ r, resolve m t s = .error r → ∀ a, Memory.read u.mem a = Memory.read s.mem a) ∧
    u.memLen = s.memLen ∧ u.input = s.input ∧ u.out = s.out ∧
    (u.run ≠ .haltedError → u.cause = s.cause ∧ u.icount = s.icount + 1#8) ∧
    (u.run = .haltedError → u.acc = s.acc ∧ u.pc = s.pc ∧ u.icount = s.icount ∧
      ∀ a, Memory.read u.mem a = Memory.read s.mem a)

/-- BAN, BR and STP write nothing but `pc`, `icount` and `run`; a fault writes `run` and `cause` alone. -/
def Obligations.FrameOfControlTransfers : Prop :=
  ∀ (m : Mode) (t : Target) (s u : State) (i : Instr), s.run = .running →
    i ∈ [Instr.ban m t, .br m t, .stp m] → exec i s = .next u →
    u.acc = s.acc ∧ (∀ a, Memory.read u.mem a = Memory.read s.mem a) ∧
    u.memLen = s.memLen ∧ u.input = s.input ∧ u.out = s.out ∧
    (u.run ≠ .haltedError → u.cause = s.cause ∧ u.icount = s.icount + 1#8) ∧
    (u.run = .haltedError → u.pc = s.pc ∧ u.icount = s.icount)

/-- RD writes the accumulator and the input, WRT the output, both through the cycle `pc`, `icount` and `run`; a fault
writes `run` and `cause` and, for a bad token of RD, the input (60_exceptions.md R103, decision D8). -/
def Obligations.FrameOfInputOutput : Prop :=
  ∀ (m : Mode) (s u : State) (i : Instr), s.run = .running →
    i ∈ [Instr.rd m, .wrt m] → exec i s = .next u →
    (∀ a, Memory.read u.mem a = Memory.read s.mem a) ∧ u.memLen = s.memLen ∧
    (i = .rd m → u.out = s.out) ∧
    (i = .wrt m → u.acc = s.acc ∧ u.input = s.input) ∧
    (u.run ≠ .haltedError → u.cause = s.cause ∧ u.icount = s.icount + 1#8) ∧
    (u.run = .haltedError → u.acc = s.acc ∧ u.pc = s.pc ∧ u.icount = s.icount ∧ u.out = s.out ∧
      (u.cause ≠ .invalidInputToken → u.input = s.input))

/-! ### Rules of the whole machine -/

/-- The only instruction that writes memory is STC (10_state.md R24, 20_memory.md R31). -/
def Obligations.OnlyStcWritesMemory : Prop :=
  ∀ (i : Instr) (s u : State), exec i s = .next u → u.mem ≠ s.mem → ∃ m t, i = .stc m t

/-- No step changes MEMLEN: memory never grows or shrinks during a run (10_state.md R23, 20_memory.md R45); past
a halt by the model's choice of log entry 4. -/
def Obligations.MemoryLengthIsConstant : Prop :=
  ∀ s u : State, step s = .next u → u.memLen = s.memLen

/-- The only instructions that leave `pc` anything but `pc + 1` are a taken BAN, BR and STP (42_branch.md R82,
10_state.md R17). -/
def Obligations.OnlyTransfersMoveThePc : Prop :=
  ∀ (i : Instr) (s u : State), s.atInstruction → exec i s = .next u → u.run ≠ .haltedError →
    u.pc.toNat ≠ s.pc.toNat + 1 →
    (∃ m t, i = .br m t) ∨ (∃ m t, i = .ban m t ∧ 32768 ≤ s.acc.toNat) ∨ (∃ m, i = .stp m)

/-- The sentinel appears by STP alone: "no address a program can form equals it" (70_reset_and_hazards.md R118, marked
derived; 10_state.md R17). -/
def Obligations.SentinelOnlyByStop : Prop :=
  ∀ s u : State, s.Inv → s.run = .running → step s = .next u →
    (u.pc.toNat = 7777 ↔ ∃ m, fetchInstr s = .ok (.stp m))

/-- Input and output follow instruction order (43_extended_io.md R91): a completed RD takes exactly the head item and a
completed WRT appends exactly the accumulator; no other completed instruction touches either stream. -/
def Obligations.StreamsFollowInstructionOrder : Prop :=
  ∀ (i : Instr) (s u : State), s.run = .running → exec i s = .next u → u.run ≠ .haltedError →
    ((∃ m, i = .rd m) → s.input = .value u.acc :: u.input) ∧
    ((∀ m, i ≠ .rd m) → u.input = s.input) ∧
    ((∃ m, i = .wrt m) → u.out = s.out ++ [s.acc]) ∧
    ((∀ m, i ≠ .wrt m) → u.out = s.out)

/-- No instruction but RD depends on the input (40_cycle_and_resolver.md R71: the state after a cycle is a function of
the state before it "and, for RD, of the head of `in`"). -/
def Obligations.OnlyRdDependsOnInput : Prop :=
  ∀ (i : Instr) (s u : State) (items : List InItem), (∀ m, i ≠ .rd m) → exec i s = .next u →
    exec i { s with input := items } = .next { u with input := items }

/-- No instruction reads what was emitted: other output before it changes nothing but the output (10_state.md R25,
43_extended_io.md R85). -/
def Obligations.OutputIsNeverRead : Prop :=
  ∀ (i : Instr) (s u : State) (earlier : List Word), exec i s = .next u →
    exec i { s with out := earlier ++ s.out } = .next { u with out := earlier ++ u.out }

/-- Faults are precise (60_exceptions.md R103, marked derived): a step that takes a fault changes `run` and `cause`
alone, but for the bad token that an RD has consumed (decision D8). -/
def Obligations.FaultsArePrecise : Prop :=
  ∀ s u : State, s.run = .running → step s = .next u → u.run = .haltedError →
    (u = s.faulted u.cause ∧ u.cause ≠ .none ∧ u.cause ≠ .invalidInputToken) ∨
    (∃ m later, fetchInstr s = .ok (.rd m) ∧ s.input = .invalid :: later ∧
      u = State.faulted { s with input := later } .invalidInputToken)

/-- Every step of a running machine counts one instruction, unless it faults, and then the count stays
(10_state.md R22, decision D6). -/
def Obligations.CountOfCompletedInstructions : Prop :=
  ∀ s u : State, s.Inv → s.run = .running → step s = .next u →
    u.icount.toNat = s.icount.toNat + (if u.run = .haltedError then 0 else 1)

/-- A stored word is the word a later fetch of that address returns, starting with the very next cycle
(20_memory.md R44, marked derived). -/
def Obligations.StoreIsSeenByTheNextFetch : Prop :=
  ∀ (m : Mode) (t : Target) (s u : State) (loc : Nat) (i : Instr), s.Inv → s.run = .running →
    exec (.stc m t) s = .next u → resolve m t s = .ok loc → u.run = .running → u.pc.toNat = loc →
    decode s.acc = .ok i → step u = exec i u

/-! ### Invariant, reset and the end of a run -/

/-- Every step keeps the invariant, from every state that has it; past a halt by the model's choice of log entry 4. -/
def Obligations.StepKeepsTheInvariant : Prop :=
  ∀ s u : State, s.Inv → step s = .next u → u.Inv

/-- The state right after reset has the invariant (10_state.md R28; the empty image is the model's, log entry 2). -/
def Obligations.ResetHasTheInvariant : Prop :=
  State.reset.Inv

/-- Reset with any image and input that the loader takes has the invariant (10_state.md R23, R28; the refusal of a
longer image is decision D17). -/
def Obligations.LoadHasTheInvariant : Prop :=
  ∀ (image : List Word) (input : List InItem) (s : State), load image input = .next s → s.Inv

/-- The value of every piece of state after reset (10_state.md R28, 70_reset_and_hazards.md R111), for every image of at
most 4096 words; a longer one is refused (decision D17). The empty output and the whole input are decision D16. -/
def Obligations.LoadGivesTheResetValues : Prop :=
  ∀ (image : List Word) (input : List InItem),
    (image.length ≤ 4096 → ∃ s, load image input = .next s ∧
      s.pc = 0#13 ∧ s.acc = 0#16 ∧ s.run = .running ∧ s.cause = .none ∧ s.icount = 0#8 ∧
      s.memLen = image.length ∧ s.input = input ∧ s.out = [] ∧
      ∀ (k : Nat) (h : k < image.length), Memory.read s.mem k = image[k]) ∧
    (4096 < image.length → load image input = .refused .imageTooLong)

/-- Every run ends: from any state with the invariant the instructions left of the 128 are enough, so every loaded run
has at most 128 cycles (70_reset_and_hazards.md R114, marked derived; the ceiling's test is decision D6). A run that halts
sooner is taken on to the full number of steps, which leave the state as it is: that a step of a halted machine answers
the same state is the model's choice (log entry 4). -/
def Obligations.EveryRunEndsWithin128Cycles : Prop :=
  (∀ s : State, s.Inv → ∃ u, Host.Core.run Sys2Proof.core (128 - s.icount.toNat) s = .next u ∧
    u.run ≠ .running) ∧
  (∀ (image : List Word) (input : List InItem) (s : State), load image input = .next s →
    ∃ u : State, Host.Core.run Sys2Proof.core 128 s = .next u ∧ u.ending ≠ none)

/-- The seven endings: a state with the invariant shows one exactly when its run has ended, and each row of
60_exceptions.md R93 is shown exactly by the row's `run` and `cause`; the normal stop is exactly the run that ended well
(R101; 70_reset_and_hazards.md R114). -/
def Obligations.EndingShownExactlyWhenHalted : Prop :=
  ∀ s : State, s.Inv →
    (s.ending = none ↔ s.run = .running) ∧
    (s.ending = some .normalStop ↔ s.run = .haltedStop ∧ s.cause = .none) ∧
    (s.ending = some .pcOverflow ↔ s.run = .haltedPcOverflow ∧ s.cause = .none) ∧
    (s.ending = some .timeout ↔ s.run = .haltedTimeout ∧ s.cause = .none) ∧
    (s.ending = some .addressOutOfBounds ↔ s.run = .haltedError ∧ s.cause = .addressOutOfBounds) ∧
    (s.ending = some .illegalOpcode ↔ s.run = .haltedError ∧ s.cause = .illegalOpcode) ∧
    (s.ending = some .inputExhausted ↔ s.run = .haltedError ∧ s.cause = .inputExhausted) ∧
    (s.ending = some .invalidInputToken ↔ s.run = .haltedError ∧ s.cause = .invalidInputToken) ∧
    (s.endedWell ↔ s.ending = some .normalStop)

/-! ### Arithmetic and text -/

/-- The laws of the ALU (41_arithmetic_load_store.md R78). -/
def Obligations.AluLaws : Prop :=
  (∀ a b : Word,
    (aluAdd a b).toNat = (a.toNat + b.toNat) % 65536 ∧
    ((aluSub a b).toNat : Int) = ((a.toNat : Int) - b.toNat) % 65536 ∧
    (∀ i, (aluAnd a b).getLsbD i = (a.getLsbD i && b.getLsbD i)) ∧
    (-32768 ≤ toSigned16 a + toSigned16 b ∧ toSigned16 a + toSigned16 b ≤ 32767 →
      toSigned16 (aluAdd a b) = toSigned16 a + toSigned16 b) ∧
    (¬ (-32768 ≤ toSigned16 a + toSigned16 b ∧ toSigned16 a + toSigned16 b ≤ 32767) →
      (toSigned16 (aluAdd a b) - (toSigned16 a + toSigned16 b)).natAbs = 65536) ∧
    (-32768 ≤ toSigned16 a - toSigned16 b ∧ toSigned16 a - toSigned16 b ≤ 32767 →
      toSigned16 (aluSub a b) = toSigned16 a - toSigned16 b) ∧
    (¬ (-32768 ≤ toSigned16 a - toSigned16 b ∧ toSigned16 a - toSigned16 b ≤ 32767) →
      (toSigned16 (aluSub a b) - (toSigned16 a - toSigned16 b)).natAbs = 65536) ∧
    aluSub a b = aluAdd a (BitVec.ofNat 16 ((65536 - b.toNat) % 65536))) ∧
  aluSub 0#16 32768#16 = 32768#16

/-- ToSigned16 (00_scope.md R10); that the test is bit 15 is an inference the spec marks ("[derived: from rule R6]"). -/
def Obligations.SignedReading : Prop :=
  ∀ u : Word,
    (u.toNat < 32768 → toSigned16 u = u.toNat) ∧
    (32768 ≤ u.toNat → toSigned16 u = (u.toNat : Int) - 65536) ∧
    -32768 ≤ toSigned16 u ∧ toSigned16 u ≤ 32767 ∧
    (toSigned16 u < 0 ↔ u.getLsbD 15 = true)

/-- The round trip of BitCodec (00_scope.md R8; example S1). -/
def Obligations.BitCodecRoundTrip : Prop :=
  ∀ bits : List Char, bits.length = 16 → (∀ c ∈ bits, c = '0' ∨ c = '1') →
    ∃ n, toInteger bits = some n ∧ n ≤ 65535 ∧ toBitString n 16 = some bits

/-- The line of WRT is always 25 characters: 8 of spaces and then the usual decimal numeral of the word read signed, a
space, and the 16 digits of the word, which read back as the word (43_extended_io.md R90; the padding is decision D10,
log entry 15). `readNumeral` reads the usual numeral of a number alone, so the first clauses leave one text for the field. -/
def Obligations.OutputLineHas25Characters : Prop :=
  ∀ v : Word, (outLine v).length = 25 ∧
    (∃ numeral : List Char, (outLine v).take 8 = List.replicate (8 - numeral.length) ' ' ++ numeral ∧
      readNumeral numeral = some (toSigned16 v)) ∧
    (outLine v).drop 8 = ' ' :: binaryDigits v.toNat 16 ∧
    toInteger ((outLine v).drop 9) = some v.toNat
end

