-- ==== Sys2Proof/Laws/State.lean ====
section
/-! SUPPORT. The small lemmas of the state's updates: one per field per update, so that no proof unfolds a record
update. -/

namespace Sys2Proof.Machine

variable (s : State)

/-! `setAcc` -/

@[simp] theorem State.setAcc_acc (v : Word) : (s.setAcc v).acc = v := rfl
@[simp] theorem State.setAcc_pc (v : Word) : (s.setAcc v).pc = s.pc := rfl
@[simp] theorem State.setAcc_icount (v : Word) : (s.setAcc v).icount = s.icount := rfl
@[simp] theorem State.setAcc_run (v : Word) : (s.setAcc v).run = s.run := rfl
@[simp] theorem State.setAcc_cause (v : Word) : (s.setAcc v).cause = s.cause := rfl
@[simp] theorem State.setAcc_memLen (v : Word) : (s.setAcc v).memLen = s.memLen := rfl
@[simp] theorem State.setAcc_mem (v : Word) : (s.setAcc v).mem = s.mem := rfl
@[simp] theorem State.setAcc_input (v : Word) : (s.setAcc v).input = s.input := rfl
@[simp] theorem State.setAcc_out (v : Word) : (s.setAcc v).out = s.out := rfl

/-! `setPc` -/

@[simp] theorem State.setPc_acc (p : Pc) : (s.setPc p).acc = s.acc := rfl
@[simp] theorem State.setPc_pc (p : Pc) : (s.setPc p).pc = p := rfl
@[simp] theorem State.setPc_icount (p : Pc) : (s.setPc p).icount = s.icount := rfl
@[simp] theorem State.setPc_run (p : Pc) : (s.setPc p).run = s.run := rfl
@[simp] theorem State.setPc_cause (p : Pc) : (s.setPc p).cause = s.cause := rfl
@[simp] theorem State.setPc_memLen (p : Pc) : (s.setPc p).memLen = s.memLen := rfl
@[simp] theorem State.setPc_mem (p : Pc) : (s.setPc p).mem = s.mem := rfl
@[simp] theorem State.setPc_input (p : Pc) : (s.setPc p).input = s.input := rfl
@[simp] theorem State.setPc_out (p : Pc) : (s.setPc p).out = s.out := rfl

/-! `setRun` -/

@[simp] theorem State.setRun_acc (r : RunState) : (s.setRun r).acc = s.acc := rfl
@[simp] theorem State.setRun_pc (r : RunState) : (s.setRun r).pc = s.pc := rfl
@[simp] theorem State.setRun_icount (r : RunState) : (s.setRun r).icount = s.icount := rfl
@[simp] theorem State.setRun_run (r : RunState) : (s.setRun r).run = r := rfl
@[simp] theorem State.setRun_cause (r : RunState) : (s.setRun r).cause = s.cause := rfl
@[simp] theorem State.setRun_memLen (r : RunState) : (s.setRun r).memLen = s.memLen := rfl
@[simp] theorem State.setRun_mem (r : RunState) : (s.setRun r).mem = s.mem := rfl
@[simp] theorem State.setRun_input (r : RunState) : (s.setRun r).input = s.input := rfl
@[simp] theorem State.setRun_out (r : RunState) : (s.setRun r).out = s.out := rfl

/-! `setMem` -/

@[simp] theorem State.setMem_acc (m : Memory) : (s.setMem m).acc = s.acc := rfl
@[simp] theorem State.setMem_pc (m : Memory) : (s.setMem m).pc = s.pc := rfl
@[simp] theorem State.setMem_icount (m : Memory) : (s.setMem m).icount = s.icount := rfl
@[simp] theorem State.setMem_run (m : Memory) : (s.setMem m).run = s.run := rfl
@[simp] theorem State.setMem_cause (m : Memory) : (s.setMem m).cause = s.cause := rfl
@[simp] theorem State.setMem_memLen (m : Memory) : (s.setMem m).memLen = s.memLen := rfl
@[simp] theorem State.setMem_mem (m : Memory) : (s.setMem m).mem = m := rfl
@[simp] theorem State.setMem_input (m : Memory) : (s.setMem m).input = s.input := rfl
@[simp] theorem State.setMem_out (m : Memory) : (s.setMem m).out = s.out := rfl

/-! `setInput` -/

@[simp] theorem State.setInput_acc (items : List InItem) : (s.setInput items).acc = s.acc := rfl
@[simp] theorem State.setInput_pc (items : List InItem) : (s.setInput items).pc = s.pc := rfl
@[simp] theorem State.setInput_icount (items : List InItem) : (s.setInput items).icount = s.icount := rfl
@[simp] theorem State.setInput_run (items : List InItem) : (s.setInput items).run = s.run := rfl
@[simp] theorem State.setInput_cause (items : List InItem) : (s.setInput items).cause = s.cause := rfl
@[simp] theorem State.setInput_memLen (items : List InItem) : (s.setInput items).memLen = s.memLen := rfl
@[simp] theorem State.setInput_mem (items : List InItem) : (s.setInput items).mem = s.mem := rfl
@[simp] theorem State.setInput_input (items : List InItem) : (s.setInput items).input = items := rfl
@[simp] theorem State.setInput_out (items : List InItem) : (s.setInput items).out = s.out := rfl

/-! `countInstruction` -/

@[simp] theorem State.countInstruction_acc : (s.countInstruction).acc = s.acc := rfl
@[simp] theorem State.countInstruction_pc : (s.countInstruction).pc = s.pc := rfl
@[simp] theorem State.countInstruction_icount : (s.countInstruction).icount = s.icount + 1#8 := rfl
@[simp] theorem State.countInstruction_run : (s.countInstruction).run = s.run := rfl
@[simp] theorem State.countInstruction_cause : (s.countInstruction).cause = s.cause := rfl
@[simp] theorem State.countInstruction_memLen : (s.countInstruction).memLen = s.memLen := rfl
@[simp] theorem State.countInstruction_mem : (s.countInstruction).mem = s.mem := rfl
@[simp] theorem State.countInstruction_input : (s.countInstruction).input = s.input := rfl
@[simp] theorem State.countInstruction_out : (s.countInstruction).out = s.out := rfl

/-! `outEmit` -/

@[simp] theorem outEmit_acc (v : Word) : (outEmit v s).acc = s.acc := rfl
@[simp] theorem outEmit_pc (v : Word) : (outEmit v s).pc = s.pc := rfl
@[simp] theorem outEmit_icount (v : Word) : (outEmit v s).icount = s.icount := rfl
@[simp] theorem outEmit_run (v : Word) : (outEmit v s).run = s.run := rfl
@[simp] theorem outEmit_cause (v : Word) : (outEmit v s).cause = s.cause := rfl
@[simp] theorem outEmit_memLen (v : Word) : (outEmit v s).memLen = s.memLen := rfl
@[simp] theorem outEmit_mem (v : Word) : (outEmit v s).mem = s.mem := rfl
@[simp] theorem outEmit_input (v : Word) : (outEmit v s).input = s.input := rfl
@[simp] theorem outEmit_out (v : Word) : (outEmit v s).out = s.out ++ [v] := rfl

/-! `raise` -/

@[simp] theorem State.raise_acc (r : Raise) : (s.raise r).acc = s.acc := rfl
@[simp] theorem State.raise_pc (r : Raise) : (s.raise r).pc = s.pc := rfl
@[simp] theorem State.raise_icount (r : Raise) : (s.raise r).icount = s.icount := rfl
@[simp] theorem State.raise_run (r : Raise) : (s.raise r).run = .haltedError := rfl
@[simp] theorem State.raise_cause (r : Raise) : (s.raise r).cause = r.cause := rfl
@[simp] theorem State.raise_memLen (r : Raise) : (s.raise r).memLen = s.memLen := rfl
@[simp] theorem State.raise_mem (r : Raise) : (s.raise r).mem = s.mem := rfl
@[simp] theorem State.raise_input (r : Raise) : (s.raise r).input = s.input := rfl
@[simp] theorem State.raise_out (r : Raise) : (s.raise r).out = s.out := rfl

end Sys2Proof.Machine
end

