-- ==== Sys2Proof/Laws/Memory.lean ====
section
/-! SUPPORT. The laws of the list of cells: what a write leaves readable, that every operation keeps the canonical
form, and where its cells lie. -/

namespace Sys2Proof.Machine

/-- A write leaves every other address alone, whatever the list. -/
theorem Memory.read_write_other {a b : Nat} (h : b ≠ a) (v : Word) :
    ∀ mem : Memory, Memory.read (Memory.write mem a v) b = Memory.read mem b
  | [] => by
    by_cases hv : v = 0#16 <;> simp [Memory.write, Memory.read, hv, h]
  | (c, w) :: rest => by
    have ih := Memory.read_write_other h v rest
    simp only [Memory.write]
    split_ifs with h1 h2 h3 h4 <;> simp_all [Memory.read]

/-- An address that no cell of the list has reads as 0. -/
theorem Memory.read_absent {a : Nat} :
    ∀ {mem : Memory}, (∀ c ∈ mem, c.1 ≠ a) → Memory.read mem a = 0#16
  | [], _ => rfl
  | (c, w) :: rest, h => by
    have hc : a ≠ c := fun e => h (c, w) List.mem_cons_self e.symm
    simpa [Memory.read, hc] using
      Memory.read_absent (mem := rest) fun d hd => h d (List.mem_cons_of_mem _ hd)

theorem Memory.read_below_head {a : Nat} {mem : Memory} (h : ∀ c ∈ mem, a < c.1) :
    Memory.read mem a = 0#16 :=
  Memory.read_absent fun c hc => Nat.ne_of_gt (h c hc)

/-- In canonical form a read after a write to the same address gives the word written. -/
theorem Memory.read_write_same (a : Nat) (v : Word) :
    ∀ {mem : Memory}, Memory.wf mem → Memory.read (Memory.write mem a v) a = v
  | [], _ => by
    by_cases hv : v = 0#16 <;> simp [Memory.write, Memory.read, hv]
  | (c, w) :: rest, h => by
    obtain ⟨hp, hz⟩ := h
    obtain ⟨hc, hrest⟩ := List.pairwise_cons.mp hp
    have ih := Memory.read_write_same a v (mem := rest)
      ⟨hrest, fun d hd => hz d (List.mem_cons_of_mem _ hd)⟩
    simp only [Memory.write]
    split_ifs with h1 h2 h3 h4
    · subst h1; subst h2
      exact Memory.read_below_head hc
    · simp [Memory.read]
    · subst h4
      simpa [Memory.read, h1] using
        Memory.read_below_head (a := a) fun d hd => Nat.lt_trans h3 (hc d hd)
    · simp [Memory.read]
    · simpa [Memory.read, h1] using ih

/-- A cell listed after a write was listed before it, or is the one written. -/
theorem Memory.mem_write {a : Nat} {v : Word} {c : Cell} :
    ∀ {mem : Memory}, c ∈ Memory.write mem a v → c ∈ mem ∨ (c = (a, v) ∧ v ≠ 0#16)
  | [], h => by
    by_cases hv : v = 0#16 <;> simp_all [Memory.write]
  | (d, w) :: rest, h => by
    have ih := Memory.mem_write (a := a) (v := v) (c := c) (mem := rest)
    simp only [Memory.write] at h
    split_ifs at h with h1 h2 h3 h4 <;> simp only [List.mem_cons] at h ⊢ <;> tauto

/-- A write keeps the canonical form. -/
theorem Memory.write_wf (a : Nat) (v : Word) :
    ∀ {mem : Memory}, Memory.wf mem → Memory.wf (Memory.write mem a v)
  | [], _ => by
    by_cases hv : v = 0#16 <;> simp [Memory.write, Memory.wf, hv]
  | (c, w) :: rest, h => by
    obtain ⟨hp, hz⟩ := h
    obtain ⟨hc, hrest⟩ := List.pairwise_cons.mp hp
    have hzrest : ∀ d ∈ rest, d.2 ≠ 0#16 := fun d hd => hz d (List.mem_cons_of_mem _ hd)
    have ih := Memory.write_wf a v (mem := rest) ⟨hrest, hzrest⟩
    simp only [Memory.write]
    split_ifs with h1 h2 h3 h4
    · exact ⟨hrest, hzrest⟩
    · subst h1
      exact ⟨List.pairwise_cons.mpr ⟨hc, hrest⟩, List.forall_mem_cons.mpr ⟨h2, hzrest⟩⟩
    · exact ⟨hp, hz⟩
    · refine ⟨List.pairwise_cons.mpr ⟨?_, hp⟩, List.forall_mem_cons.mpr ⟨h4, hz⟩⟩
      exact List.forall_mem_cons.mpr ⟨h3, fun d hd => Nat.lt_trans h3 (hc d hd)⟩
    · refine ⟨List.pairwise_cons.mpr ⟨fun d hd => ?_, ih.1⟩,
        List.forall_mem_cons.mpr ⟨hz _ List.mem_cons_self, ih.2⟩⟩
      rcases Memory.mem_write hd with hd | ⟨rfl, -⟩
      · exact hc d hd
      · exact Nat.lt_of_le_of_ne (Nat.le_of_not_lt h3) (Ne.symm h1)

/-- The cells of an image laid out from `a` lie from `a` on and before its end. -/
theorem Memory.mem_ofImage {c : Cell} :
    ∀ {image : List Word} {a : Nat}, c ∈ Memory.ofImage a image →
      a ≤ c.1 ∧ c.1 < a + image.length ∧ c.2 ≠ 0#16
  | [], _, h => by simp [Memory.ofImage] at h
  | w :: rest, a, h => by
    have ih := Memory.mem_ofImage (c := c) (image := rest) (a := a + 1)
    simp only [Memory.ofImage] at h
    simp only [List.length_cons]
    split_ifs at h with hw
    · obtain ⟨h1, h2, h3⟩ := ih h
      exact ⟨by omega, by omega, h3⟩
    · rcases List.mem_cons.mp h with rfl | h
      · exact ⟨Nat.le_refl _, by simp, hw⟩
      · obtain ⟨h1, h2, h3⟩ := ih h
        exact ⟨by omega, by omega, h3⟩

/-- A loaded image is in canonical form. -/
theorem Memory.ofImage_wf :
    ∀ (image : List Word) (a : Nat), Memory.wf (Memory.ofImage a image)
  | [], _ => by simp [Memory.ofImage, Memory.wf]
  | w :: rest, a => by
    have ih := Memory.ofImage_wf rest (a + 1)
    simp only [Memory.ofImage]
    split_ifs with hw
    · exact ih
    · exact ⟨List.pairwise_cons.mpr ⟨fun d hd => (Memory.mem_ofImage hd).1, ih.1⟩,
        List.forall_mem_cons.mpr ⟨hw, ih.2⟩⟩

/-- Each word of a loaded image reads back at its own address. -/
theorem Memory.read_ofImage :
    ∀ (image : List Word) (a k : Nat),
      Memory.read (Memory.ofImage a image) (a + k) = image.getD k 0#16
  | [], _, _ => by simp [Memory.ofImage, Memory.read]
  | w :: rest, a, 0 => by
    have hrest : Memory.read (Memory.ofImage (a + 1) rest) a = 0#16 :=
      Memory.read_below_head fun c hc => (Memory.mem_ofImage hc).1
    by_cases hw : w = 0#16 <;> simp [Memory.ofImage, Memory.read, hw, hrest]
  | w :: rest, a, k + 1 => by
    have ih := Memory.read_ofImage rest (a + 1) k
    have e : a + (k + 1) = a + 1 + k := by omega
    have hne : a + 1 + k ≠ a := by omega
    by_cases hw : w = 0#16 <;> simp [Memory.ofImage, Memory.read, hw, e, hne, ih]

/-- The memory of the reset state is in canonical form. -/
theorem State.reset_mem_wf : Memory.wf State.reset.mem := by decide

end Sys2Proof.Machine
end

