-- ==== Sys2Proof/Laws/Ops.lean ====
section
/-! SUPPORT. One lemma per shared operation that says everything it can do, and the small lemmas of the end of the
cycle. A proof about an instruction cites these instead of unfolding the operation. -/

namespace Sys2Proof.Machine

/-! ### Memory accesses -/

theorem memRead_ok {st : Stage} {a : Nat} {s : State} {w : Word} :
    memRead st a s = .ok w ↔ a < s.memLen ∧ w = Memory.read s.mem a := by
  unfold memRead
  split_ifs with h
  · simp; omega
  · simp [Nat.lt_of_not_le h, eq_comm]

theorem memRead_error {st : Stage} {a : Nat} {s : State} {r : Raise} :
    memRead st a s = .error r ↔ s.memLen ≤ a ∧ r = .addressOutOfBounds st a := by
  unfold memRead
  split_ifs with h <;> simp [h, eq_comm]

theorem memWrite_ok {a : Nat} {v : Word} {s t : State} :
    memWrite a v s = .ok t ↔ a < s.memLen ∧ t = s.setMem (Memory.write s.mem a v) := by
  unfold memWrite
  split_ifs with h
  · simp; omega
  · simp [Nat.lt_of_not_le h, eq_comm]

theorem memWrite_error {a : Nat} {v : Word} {s : State} {r : Raise} :
    memWrite a v s = .error r ↔ s.memLen ≤ a ∧ r = .addressOutOfBounds .operand a := by
  unfold memWrite
  split_ifs with h <;> simp [h, eq_comm]

/-! ### The input port -/

theorem inTake_none {s : State} : inTake s = none ↔ s.input = [] := by
  unfold inTake; cases s.input <;> simp

theorem inTake_some {s t : State} {item : InItem} :
    inTake s = some (item, t) ↔ s.input = item :: t.input ∧ t = s.setInput t.input := by
  unfold inTake
  cases h : s.input with
  | nil => simp
  | cons x xs =>
    constructor
    · intro e; cases e; simp
    · rintro ⟨e, et⟩
      cases e
      simpa using et.symm

/-! ### The resolver -/

theorem rangeOK_iff {a : Nat} : rangeOK a = true ↔ a ≤ 4096 :=
  decide_eq_true_iff

/-- The resolver answers a location up to 4096, or raises an AddressOutOfBounds. -/
theorem resolve_cases (m : Mode) (t : Target) (s : State) :
    (∃ loc, resolve m t s = .ok loc ∧ loc ≤ 4096) ∨
      ∃ st a, resolve m t s = .error (.addressOutOfBounds st a) := by
  unfold resolve
  split_ifs with h
  · cases m with
    | direct => exact .inl ⟨t.toNat, rfl, rangeOK_iff.mp h⟩
    | indirect =>
      cases hr : memRead .pointer t.toNat s with
      | error r => exact .inr ⟨.pointer, t.toNat, by simp [(memRead_error.mp hr).2]⟩
      | ok p =>
        by_cases hp : rangeOK p.toNat = true
        · exact .inl ⟨p.toNat, by simp [hp], rangeOK_iff.mp hp⟩
        · exact .inr ⟨.pointerValue, p.toNat, by simp [hp]⟩
  · exact .inr ⟨_, _, rfl⟩

theorem withLocation_ok {m : Mode} {t : Target} {s : State} {loc : Nat} {k : Nat → State}
    (h : resolve m t s = .ok loc) : withLocation m t s k = k loc := by
  simp [withLocation, h]

theorem withLocation_error {m : Mode} {t : Target} {s : State} {r : Raise} {k : Nat → State}
    (h : resolve m t s = .error r) : withLocation m t s k = s.raise r := by
  simp [withLocation, h]

/-- Everything `withLocation` can do: an AddressOutOfBounds of the resolver taken, or the rest run at a location. -/
theorem withLocation_cases (m : Mode) (t : Target) (s : State) (k : Nat → State) :
    (∃ st a, resolve m t s = .error (.addressOutOfBounds st a) ∧
      withLocation m t s k = s.raise (.addressOutOfBounds st a)) ∨
    ∃ loc, resolve m t s = .ok loc ∧ loc ≤ 4096 ∧ withLocation m t s k = k loc := by
  rcases resolve_cases m t s with ⟨loc, h, hl⟩ | ⟨st, a, h⟩
  · exact .inr ⟨loc, h, hl, withLocation_ok h⟩
  · exact .inl ⟨st, a, h, withLocation_error h⟩

theorem withCell_ok {loc : Nat} {s : State} {k : Word → State} (h : loc < s.memLen) :
    withCell loc s k = k (Memory.read s.mem loc) := by
  simp [withCell, (memRead_ok (st := .operand)).mpr ⟨h, rfl⟩]

theorem withCell_error {loc : Nat} {s : State} {k : Word → State} (h : s.memLen ≤ loc) :
    withCell loc s k = s.raise (.addressOutOfBounds .operand loc) := by
  simp [withCell, (memRead_error (st := .operand)).mpr ⟨h, rfl⟩]

/-- Everything `withOperand` can do: an AddressOutOfBounds taken, or the rest run on the word of a loaded cell. -/
theorem withOperand_cases (m : Mode) (t : Target) (s : State) (k : Word → State) :
    (∃ st a, withOperand m t s k = s.raise (.addressOutOfBounds st a)) ∨
    ∃ loc, resolve m t s = .ok loc ∧ loc < s.memLen ∧
      withOperand m t s k = k (Memory.read s.mem loc) := by
  unfold withOperand
  rcases withLocation_cases m t s (fun loc => withCell loc s k) with ⟨st, a, -, h⟩ | ⟨loc, hloc, -, h⟩
  · exact .inl ⟨st, a, h⟩
  · rcases Nat.lt_or_ge loc s.memLen with hlt | hge
    · exact .inr ⟨loc, hloc, hlt, h.trans (withCell_ok hlt)⟩
    · exact .inl ⟨.operand, loc, h.trans (withCell_error hge)⟩

/-! ### The end of the cycle -/

/-- The checks of steps 4 and 5 can only set the run state, in this order. -/
theorem checkEnd_cases (s : State) :
    (s.memLen ≤ s.pc.toNat ∧ checkEnd s = s.setRun .haltedPcOverflow) ∨
    (s.pc.toNat < s.memLen ∧ s.icount = 128#8 ∧ checkEnd s = s.setRun .haltedTimeout) ∨
    (s.pc.toNat < s.memLen ∧ s.icount ≠ 128#8 ∧ checkEnd s = s) := by
  unfold checkEnd Config.icountMax
  split_ifs with h1 h2
  · exact .inl ⟨h1, rfl⟩
  · exact .inr (.inl ⟨Nat.lt_of_not_le h1, h2, rfl⟩)
  · exact .inr (.inr ⟨Nat.lt_of_not_le h1, h2, rfl⟩)

section
variable (s : State)
@[simp] theorem checkEnd_acc : (checkEnd s).acc = s.acc := by unfold checkEnd; split_ifs <;> rfl
@[simp] theorem checkEnd_pc : (checkEnd s).pc = s.pc := by unfold checkEnd; split_ifs <;> rfl
@[simp] theorem checkEnd_icount : (checkEnd s).icount = s.icount := by unfold checkEnd; split_ifs <;> rfl
@[simp] theorem checkEnd_cause : (checkEnd s).cause = s.cause := by unfold checkEnd; split_ifs <;> rfl
@[simp] theorem checkEnd_memLen : (checkEnd s).memLen = s.memLen := by unfold checkEnd; split_ifs <;> rfl
@[simp] theorem checkEnd_mem : (checkEnd s).mem = s.mem := by unfold checkEnd; split_ifs <;> rfl
@[simp] theorem checkEnd_input : (checkEnd s).input = s.input := by unfold checkEnd; split_ifs <;> rfl
@[simp] theorem checkEnd_out : (checkEnd s).out = s.out := by unfold checkEnd; split_ifs <;> rfl

variable (n : Sequencing)
@[simp] theorem endCycle_acc : (endCycle n s).acc = s.acc := by cases n <;> simp [endCycle]
@[simp] theorem endCycle_icount : (endCycle n s).icount = s.icount + 1#8 := by cases n <;> simp [endCycle]
@[simp] theorem endCycle_cause : (endCycle n s).cause = s.cause := by cases n <;> simp [endCycle]
@[simp] theorem endCycle_memLen : (endCycle n s).memLen = s.memLen := by cases n <;> simp [endCycle]
@[simp] theorem endCycle_mem : (endCycle n s).mem = s.mem := by cases n <;> simp [endCycle]
@[simp] theorem endCycle_input : (endCycle n s).input = s.input := by cases n <;> simp [endCycle]
@[simp] theorem endCycle_out : (endCycle n s).out = s.out := by cases n <;> simp [endCycle]
@[simp] theorem endCycle_seq_pc : (endCycle .seq s).pc = s.pc + 1#13 := by simp [endCycle]
@[simp] theorem endCycle_jump_pc (loc : Nat) : (endCycle (.jump loc) s).pc = BitVec.ofNat 13 loc := by
  simp [endCycle]
@[simp] theorem endCycle_stop_pc : (endCycle .stop s).pc = 7777#13 := rfl
@[simp] theorem endCycle_stop_run : (endCycle .stop s).run = .haltedStop := rfl
end

/-! The end of the cycle neither reads nor writes the two streams. -/

theorem checkEnd_with_input (s : State) (items : List InItem) :
    checkEnd { s with input := items } = { checkEnd s with input := items } := by
  by_cases h1 : s.memLen ≤ s.pc.toNat <;> by_cases h2 : s.icount = Config.icountMax <;>
    simp [checkEnd, h1, h2, State.setRun]

theorem checkEnd_with_out (s : State) (words : List Word) :
    checkEnd { s with out := words } = { checkEnd s with out := words } := by
  by_cases h1 : s.memLen ≤ s.pc.toNat <;> by_cases h2 : s.icount = Config.icountMax <;>
    simp [checkEnd, h1, h2, State.setRun]

theorem endCycle_with_input (n : Sequencing) (s : State) (items : List InItem) :
    endCycle n { s with input := items } = { endCycle n s with input := items } := by
  cases n with
  | seq => exact checkEnd_with_input (s.countInstruction.setPc (s.pc + 1#13)) items
  | jump loc => exact checkEnd_with_input (s.countInstruction.setPc (BitVec.ofNat 13 loc)) items
  | stop => rfl

theorem endCycle_with_out (n : Sequencing) (s : State) (words : List Word) :
    endCycle n { s with out := words } = { endCycle n s with out := words } := by
  cases n with
  | seq => exact checkEnd_with_out (s.countInstruction.setPc (s.pc + 1#13)) words
  | jump loc => exact checkEnd_with_out (s.countInstruction.setPc (BitVec.ofNat 13 loc)) words
  | stop => rfl

/-! ### Reset -/

theorem loadableImage_iff {image : List Word} : loadableImage image = true ↔ image.length ≤ 4096 :=
  decide_eq_true_iff


theorem load_empty : load [] [] = .next State.reset := rfl

end Sys2Proof.Machine
end

