-- ==== Sys2Proof/Laws/Instructions.lean ====
section
/-! SUPPORT. Everything the two operations with a shape of their own can do: the store of STC and the item of RD. -/

namespace Sys2Proof.Machine

theorem storeAndClear_cases (s : State) (loc : Nat) :
    (s.memLen ≤ loc ∧ storeAndClear s loc = s.raise (.addressOutOfBounds .operand loc)) ∨
    (loc < s.memLen ∧
      storeAndClear s loc = endCycle .seq ((s.setMem (Memory.write s.mem loc s.acc)).setAcc 0#16)) := by
  unfold storeAndClear
  rcases Nat.lt_or_ge loc s.memLen with h | h
  · exact .inr ⟨h, by simp [(memWrite_ok (v := s.acc)).mpr ⟨h, rfl⟩]⟩
  · exact .inl ⟨h, by simp [(memWrite_error (v := s.acc)).mpr ⟨h, rfl⟩]⟩

theorem readItem_cases (s : State) :
    (s.input = [] ∧ readItem s = s.raise .inputExhausted) ∨
    (∃ later, s.input = .invalid :: later ∧ readItem s = (s.setInput later).raise .invalidInputToken) ∨
    (∃ v later, s.input = .value v :: later ∧
      readItem s = endCycle .seq ((s.setInput later).setAcc v)) := by
  unfold readItem inTake
  cases h : s.input with
  | nil => exact .inl ⟨rfl, rfl⟩
  | cons item later =>
    cases item with
    | invalid => exact .inr (.inl ⟨later, rfl, rfl⟩)
    | value v => exact .inr (.inr ⟨v, later, rfl, rfl⟩)

end Sys2Proof.Machine
end

