-- ==== Sys2Proof/Laws/Output.lean ====
section
/-! SUPPORT. What the functions that write words down can do: lengths, and where no free value shows. -/

namespace Sys2Proof.Machine

@[simp] theorem binaryDigits_length (value width : Nat) : (binaryDigits value width).length = width := by
  induction width with
  | zero => rfl
  | succ k ih => simp [binaryDigits, ih]

/-- On a value that its width holds no free value shows. -/
theorem toBitString_of_lt {value width : Nat} (hw : width = 8 ∨ width = 12 ∨ width = 16) (hv : value < 2 ^ width) :
    toBitString value width = some (binaryDigits value width) := by
  simp [toBitString, hw, hv]

/-- Whatever is shown has exactly `width` digits (00_scope.md R8). -/
theorem toBitString_length {value width : Nat} {digits : List Char} (h : toBitString value width = some digits) :
    digits.length = width := by
  unfold toBitString at h
  split at h
  · cases h; simp
  · cases h

theorem toInteger_of_ne_nil {bits : List Char} (h : bits ≠ []) : toInteger bits = readDigits 0 bits := by
  simp [toInteger, h]

theorem field8_length {text : List Char} (h : text.length ≤ 8) : (field8 text).length = 8 := by
  simp [field8]; omega

end Sys2Proof.Machine
end

