-- ==== Sys2Proof/Laws/PerInstr.lean ====
section
/-! SUPPORT. Statements made once per instruction. -/

/-- The word of every instruction is a legal word (30_encoding.md R54, R55). -/
def Sys2Proof.Laws.EncodesLegalWord.Statement (i : Sys2Proof.Instr) : Prop :=
  Sys2Proof.legalWord (Sys2Proof.encode i) = true

namespace Sys2Proof.Laws.EncodesLegalWord

/-- The number of an assembled word is `op * 8192 + m * 4096 + t` (30_encoding.md R48). -/
theorem assemble_toNat (op : BitVec 3) (m : Mode) (t : Target) :
    (assemble op m t).toNat = op.toNat * 8192 + m.bit.toNat * 4096 + t.toNat := by
  have ht := t.isLt
  have hm := m.bit.isLt
  simp only [assemble, BitVec.toNat_append]
  rw [← Nat.shiftLeft_add_eq_or_of_lt (by omega), ← Nat.shiftLeft_add_eq_or_of_lt (by omega)]
  simp only [Nat.shiftLeft_eq]
  omega

theorem legal_of_base {op : BitVec 3} (h : op.toNat < 7) (m : Mode) (t : Target) :
    legalWord (assemble op m t) = true := by
  have ht := t.isLt
  have hm := m.bit.isLt
  simp [legalWord, assemble_toNat]
  omega

theorem legal_of_selector (m : Mode) {t : Target} (h : 1 ≤ t.toNat ∧ t.toNat ≤ 3) :
    legalWord (assemble 7#3 m t) = true := by
  have ht := t.isLt
  have hm := m.bit.isLt
  simp [legalWord, assemble_toNat]
  omega

theorem ban (m : Mode) (t : Target) : Statement (.ban m t) := legal_of_base (by decide) m t
theorem sub (m : Mode) (t : Target) : Statement (.sub m t) := legal_of_base (by decide) m t
theorem stc (m : Mode) (t : Target) : Statement (.stc m t) := legal_of_base (by decide) m t
theorem and (m : Mode) (t : Target) : Statement (.and m t) := legal_of_base (by decide) m t
theorem add (m : Mode) (t : Target) : Statement (.add m t) := legal_of_base (by decide) m t
theorem ld (m : Mode) (t : Target) : Statement (.ld m t) := legal_of_base (by decide) m t
theorem br (m : Mode) (t : Target) : Statement (.br m t) := legal_of_base (by decide) m t
theorem rd (m : Mode) : Statement (.rd m) := legal_of_selector m (by decide)
theorem stp (m : Mode) : Statement (.stp m) := legal_of_selector m (by decide)
theorem wrt (m : Mode) : Statement (.wrt m) := legal_of_selector m (by decide)

end Sys2Proof.Laws.EncodesLegalWord
end

