-- ==== Sys2Proof/Laws/Step.lean ====
section
/-! SUPPORT. The inversion of one step: every claim about a step starts from one of these three cases. -/

namespace Sys2Proof.Machine

theorem fetchInstr_ok {s : State} {i : Instr} :
    fetchInstr s = .ok i ↔
      s.pc.toNat < s.memLen ∧ decode (Memory.read s.mem s.pc.toNat) = .ok i := by
  unfold fetchInstr
  cases h : memRead .fetch s.pc.toNat s with
  | error r =>
    have := (memRead_error.mp h).1
    simp; omega
  | ok w =>
    obtain ⟨hlt, rfl⟩ := memRead_ok.mp h
    cases hd : decode (Memory.read s.mem s.pc.toNat) with
    | ok j => simp [hlt, hd]
    | error e => cases e; simp [hd]

/-- A fetch fails on a missing cell or on a word that is no instruction. -/
theorem fetchInstr_error {s : State} {r : Raise} (h : fetchInstr s = .error r) :
    (s.memLen ≤ s.pc.toNat ∧ r = .addressOutOfBounds .fetch s.pc.toNat) ∨
    (s.pc.toNat < s.memLen ∧ ∃ w, decode (Memory.read s.mem s.pc.toNat) = .error (.illegalExtended w) ∧
      r = .illegalOpcode w) := by
  unfold fetchInstr at h
  cases hr : memRead .fetch s.pc.toNat s with
  | error q =>
    obtain ⟨hle, rfl⟩ := memRead_error.mp hr
    rw [hr] at h
    cases h
    exact .inl ⟨hle, rfl⟩
  | ok w =>
    obtain ⟨hlt, rfl⟩ := memRead_ok.mp hr
    rw [hr] at h
    cases hd : decode (Memory.read s.mem s.pc.toNat) with
    | ok j => simp [hd] at h
    | error e =>
      cases e with
      | illegalExtended bad =>
        simp only [hd, Except.error.injEq] at h
        exact .inr ⟨hlt, bad, rfl, h.symm⟩

/-- Everything a step can do: rest, take the fault of its fetch, or execute the instruction fetched. -/
theorem step_cases (s : State) :
    (s.run ≠ .running ∧ step s = .next s) ∨
    (s.run = .running ∧ ∃ r, fetchInstr s = .error r ∧ step s = .next (s.raise r)) ∨
    (s.run = .running ∧ ∃ i, fetchInstr s = .ok i ∧ step s = exec i s) := by
  unfold step cycleExists
  by_cases hr : s.run = .running
  · cases hf : fetchInstr s with
    | error r => exact .inr (.inl ⟨hr, r, rfl, by simp [hr, takeFault]⟩)
    | ok i => exact .inr (.inr ⟨hr, i, rfl, by simp [hr]⟩)
  · exact .inl ⟨hr, by simp [hr, idle]⟩

end Sys2Proof.Machine
end

