-- ==== Sys2Proof/Tests/Slice0.lean ====
section
/-! SUPPORT. The model's own tests. Every expected value is the spec's: a worked example of an instruction rule, or a
vector or example of 95_test_vectors.md, named beside the test. Below them stand the witnesses: for each statement with
hypotheses a concrete state and operands that meet them, clause by clause. -/

namespace Sys2Proof.Tests

open Sys2Proof Sys2Proof.Machine

/-! ### Helpers -/

/-- The next state, where there is one. -/
def after : Host.Outcome State Fault Refusal → Option State
  | .next s => some s
  | _ => none

/-- The state right after reset with this image and input. -/
def started (image : List Word) (input : List InItem) : State :=
  (after (load image input)).getD State.reset

/-- The memory of the resolver vectors (95_test_vectors.md 2.3) with three items of input. -/
def resolverState : State :=
  started [0, 0, 0, 0, 0, 2, 0, 0, 9, 10, 0x1000, 0x1001] [.value 0x8000, .invalid, .value 7]

/-- Program P3 (95_test_vectors.md). -/
def p3 : State :=
  started [0xB008, 0x400A, 0x200A, 0x600B, 0xE003, 0xE001, 0xE003, 0xE002, 9, 0x1234, 0, 0x00FF] [.value 0x8000]

/-- One instruction on `p3`'s memory with a chosen accumulator. -/
def onP3 (i : Instr) (acc : Word) : Option State := after (exec i { p3 with acc := acc })

/-! ### Well-formedness: the ill-formed terms each check refuses -/

theorem test_illegal_selector_zero_refused : legalWord 0xE000 = false := by decide
theorem test_illegal_selector_four_refused : legalWord 0xE004 = false := by decide
theorem test_illegal_last_word_refused : legalWord 0xFFFF = false := by decide
theorem test_legal_stop_accepted : legalWord 0xF002 = true := by decide
theorem test_image_of_4097_words_refused : loadableImage (List.replicate 4097 0) = false :=
  decide_eq_false (by rw [List.length_replicate]; decide)
theorem test_load_refuses_4097_words : load (List.replicate 4097 0) [] = .refused .imageTooLong := by
  rw [load, test_image_of_4097_words_refused]; rfl
theorem test_zero_cell_not_canonical : ¬ Memory.wf [(3, 0)] := by decide
theorem test_unsorted_not_canonical : ¬ Memory.wf [(3, 1), (2, 1)] := by decide

/-! ### Decoding: words written out bit by bit (95_test_vectors.md 2.1) -/

theorem test_decode_ban : decodeTableWord 16 0b0000000000000001 = some (.ban .direct 1) := by decide
theorem test_decode_ban_indirect : decodeTableWord 16 0b0001000000000000 = some (.ban .indirect 0) := by decide
theorem test_decode_sub : decodeTableWord 16 0b0010000000001010 = some (.sub .direct 10) := by decide
theorem test_decode_stc : decodeTableWord 16 0b0100000000001010 = some (.stc .direct 10) := by decide
theorem test_decode_and : decodeTableWord 16 0b0110000000001011 = some (.and .direct 11) := by decide
theorem test_decode_add : decodeTableWord 16 0b1000000000000111 = some (.add .direct 7) := by decide
theorem test_decode_ld : decodeTableWord 16 0b1011000000001000 = some (.ld .indirect 8) := by decide
theorem test_decode_br : decodeTableWord 16 0b1100101110111000 = some (.br .direct 3000) := by decide
theorem test_decode_br_indirect : decodeTableWord 16 0b1101111111111111 = some (.br .indirect 4095) := by decide
theorem test_decode_rd : decodeTableWord 16 0b1110000000000001 = some (.rd .direct) := by decide
theorem test_decode_stp : decodeTableWord 16 0b1111000000000010 = some (.stp .indirect) := by decide
theorem test_decode_wrt : decodeTableWord 16 0b1110000000000011 = some (.wrt .direct) := by decide
/-- V-ENC19: the low four bits 0001 are not enough. -/
theorem test_decode_e011_refused : decodeTableWord 16 0b1110000000010001 = none := by decide
theorem test_decode_f004_refused : decodeTableWord 16 0b1111000000000100 = none := by decide

/-- The worked words of 30_encoding.md R58. -/
theorem test_encode_r58 :
    [Instr.ld .direct 3, .ld .indirect 8, .br .direct 0, .ban .direct 1, .stc .direct 10].map encode
      = [0xA003, 0xB008, 0xC000, 0x0001, 0x400A] := by decide

/-! ### The resolver (V-RES1 to V-RES9) -/

/-- The location, or the stage and address of the raise. -/
def resolved (m : Mode) (t : Target) : Nat ⊕ Raise :=
  match resolve m t resolverState with
  | .ok loc => .inl loc
  | .error r => .inr r

theorem test_res1_direct : resolved .direct 8 = .inl 8 := by decide
theorem test_res3_one_hop : resolved .indirect 9 = .inl 10 := by decide
theorem test_res4_direct_not_loaded : resolved .direct 4095 = .inl 4095 := by decide
theorem test_res5_inclusive_bound : resolved .indirect 10 = .inl 4096 := by decide
theorem test_res6_pointer_value : resolved .indirect 11 = .inr (.addressOutOfBounds .pointerValue 4097) := by decide
theorem test_res7_pointer_missing : resolved .indirect 12 = .inr (.addressOutOfBounds .pointer 12) := by decide

/-! ### The instructions -/

/-- Example S4: 32768 branches. -/
theorem test_ban_taken_at_32768 : (onP3 (.ban .direct 3) 32768).map State.pc = some 3 := by decide
/-- Example S4: 32767 does not. -/
theorem test_ban_not_taken_at_32767 : (onP3 (.ban .direct 3) 32767).map State.pc = some 1 := by decide
/-- R73's worked example, on the cell 9 of P3. -/
theorem test_sub_worked : (onP3 (.sub .direct 9) 0).map State.acc = some 0xEDCC := by decide
/-- R74's worked example. -/
theorem test_stc_worked : (onP3 (.stc .direct 10) 0x1234).map (fun s => (Memory.read s.mem 10, s.acc))
    = some (0x1234, 0) := by decide
/-- V-F4: a faulting STC neither stores nor clears. -/
theorem test_stc_fault_keeps_acc : (onP3 (.stc .direct 12) 0x4005).map (fun s => (s.acc, s.cause, decide (s.mem = p3.mem)))
    = some (0x4005, .addressOutOfBounds, true) := by decide
/-- R75's worked example. -/
theorem test_and_worked : (onP3 (.and .direct 11) 0xEDCC).map State.acc = some 0x00CC := by decide
/-- V-ALU12, on the cell 0 of a one-word program: the carry is dropped. -/
theorem test_add_drops_carry :
    (after (exec (.add .direct 0) { started [0xA000] [] with acc := 0xA000 })).map State.acc = some 0x4000 := by decide
/-- R77's worked example. -/
theorem test_ld_indirect_worked : (onP3 (.ld .indirect 8) 5).map State.acc = some 0x1234 := by decide
/-- V-F2: the pointer 4096 passes the range check and the access faults. -/
theorem test_ld_at_4096_faults :
    (after (step (started [0xB001, 0x1000] []))).map (fun s => (s.run, s.cause, s.pc, s.icount))
      = some (.haltedError, .addressOutOfBounds, 0, 0) := by decide
/-- R81's worked example. -/
theorem test_br_indirect_worked : (after (exec (.br .indirect 5) resolverState)).map State.pc = some 2 := by decide
/-- V-PC3: the inclusive bound is an overflow for a branch, not a fault. -/
theorem test_br_to_4096_overflows :
    (after (step (started [0xD001, 0x1000] []))).map (fun s => (s.run, s.pc, s.icount))
      = some (.haltedPcOverflow, 4096, 1) := by decide
/-- R86's worked example. -/
theorem test_rd_worked : (onP3 (.rd .direct) 1).map (fun s => (s.acc, s.input)) = some (0x8000, []) := by decide
/-- V-IO4: the bad token is consumed. -/
theorem test_rd_invalid_consumed :
    (after (step (started [0xE001, 0xE002] [.invalid, .value 1]))).map (fun s => (s.cause, s.icount, s.input))
      = some (.invalidInputToken, 0, [.value 1]) := by decide
/-- V-F12: `m` is ignored. -/
theorem test_stp_ignores_mode :
    (after (step (started [0xF002] []))).map (fun s => (s.run, s.pc, s.icount)) = some (.haltedStop, 7777, 1) := by decide
/-- R88's worked example. -/
theorem test_wrt_worked : (onP3 (.wrt .direct) 0x00CC).map State.out = some [0x00CC] := by decide
/-- V-F6: nothing is emitted. -/
theorem test_wrt_fault_emits_nothing :
    (after (step (started [0xF003, 0xE002, 0, 0xFFFF] []))).map (fun s => (s.cause, s.out))
      = some (.addressOutOfBounds, []) := by decide

/-! ### The step -/

/-- V-F10: the selector is examined first. -/
theorem test_illegal_before_resolve :
    (after (step (started [0xF004] []))).map State.ending = some (some .illegalOpcode) := by decide
/-- V-F11: the empty program. -/
theorem test_empty_program_faults :
    (after (step State.reset)).map (fun s => (s.ending, s.pc)) = some (some .addressOutOfBounds, 0) := by decide
/-- V-IO3 (example S9). -/
theorem test_rd_exhausted :
    (after (step (started [0xE001, 0xE002] []))).map State.ending = some (some .inputExhausted) := by decide
/-- V-TO1's last instruction. -/
theorem test_timeout_at_128 :
    (after (step { started [0xC000] [] with icount := 127 })).map (fun s => (s.run, s.pc, s.icount))
      = some (.haltedTimeout, 0, 128) := by decide
/-- V-TO4's last instruction: overflow wins over timeout. -/
theorem test_overflow_wins_over_timeout :
    (after (step { started [0xA000] [] with icount := 127 })).map State.run = some .haltedPcOverflow := by decide
/-- V-TO2's last instruction: STOP wins over timeout. -/
theorem test_stop_wins_over_timeout :
    (after (step { started [0xE002] [] with icount := 127 })).map State.run = some .haltedStop := by decide
/-- The word placed at reset is the first instruction run. -/
theorem test_fetch_word_runs_first :
    (after (step (State.reset.withFetchWord 16 0xA000))).map State.acc = some 0xA000 := by decide

/-- The numbers of 10_state.md R20 and R21. -/
theorem test_codes :
    [RunState.running, .haltedStop, .haltedPcOverflow, .haltedTimeout, .haltedError].map RunState.code = [0, 1, 2, 3, 4] ∧
    [Cause.none, .addressOutOfBounds, .illegalOpcode, .inputExhausted, .invalidInputToken].map Cause.code
      = [0, 1, 2, 3, 4] := by decide

/-! ### Text (95_test_vectors.md 2.5, the table of lines) -/

theorem test_line_zero : outLine 0 = "       0 0000000000000000".toList := by decide
theorem test_line_minimum : outLine 0x8000 = "  -32768 1000000000000000".toList := by decide
theorem test_line_minus_one : outLine 0xFFFF = "      -1 1111111111111111".toList := by decide
theorem test_line_204 : outLine 0x00CC = "     204 0000000011001100".toList := by decide

/-- The usual numeral is read, and no other spelling of the number. -/
theorem test_numeral_reads :
    [['-', '1', '0'], ['0'], ['-', '0'], ['0', '7'], ['-'], []].map readNumeral
      = [some (-10), some 0, none, none, none, none] := by decide

/-! ### Witnesses of the statements' hypotheses -/

theorem resolverState_inv : resolverState.Inv := by constructor <;> decide
theorem p3_inv : p3.Inv := by constructor <;> decide

/-- The word of each base opcode, and of each selector. -/
theorem test_witness_BaseOpcodesDecode :
    [0x0001, 0x200A, 0x400A, 0x600B, 0x8007, 0xA003, 0xC000, 0xE001].map (fun w => (opField w).toNat)
      = [0, 1, 2, 3, 4, 5, 6, 7] ∧ decode 0xE001 = .ok (.rd .direct) := ⟨by decide, rfl⟩
theorem test_witness_ExtendedSelectorsDecode :
    [0xE001, 0xF002, 0xE003].map (fun w => (opField w, targetField w)) = [(7, 1), (7, 2), (7, 3)] ∧
    opField 0xE011 = 7 ∧ targetField 0xE011 = 17 := by decide
theorem test_witness_EncodeOfDecodeIsIdentity : decode 0xDFFF = .ok (.br .indirect 4095) := rfl
theorem test_witness_StepRunsTheDecodedInstruction :
    p3.run = .running ∧ p3.pc.toNat < p3.memLen ∧
      decode (Memory.read p3.mem p3.pc.toNat) = .ok (.ld .indirect 8) := ⟨rfl, by decide, rfl⟩
theorem test_witness_WithFetchWordIsRunNext :
    Memory.wf State.reset.mem ∧ State.reset.pc.toNat < 4096 ∧ decode 0xE003 = .ok (.wrt .direct) :=
  ⟨by decide, by decide, rfl⟩
theorem test_witness_IllegalWordTakesIllegalOpcode :
    let s := started [0xF004] []
    s.run = .running ∧ s.pc.toNat < s.memLen ∧ opField (Memory.read s.mem s.pc.toNat) = 7 ∧
      targetField (Memory.read s.mem s.pc.toNat) = 4 := by decide
theorem test_witness_FetchOutsideTheProgramFaults :
    State.reset.run = .running ∧ State.reset.memLen ≤ State.reset.pc.toNat := by decide
theorem test_witness_HaltedStatesAreAbsorbing : State.run { p3 with run := .haltedStop } ≠ .running := by decide
theorem test_witness_ReadUnderTheLengthCheck : p3.memLen ≤ 12 ∧ 11 < p3.memLen := by decide
theorem test_witness_WriteReplacesOneWord : p3.Inv ∧ p3.memLen ≤ 12 ∧ 11 < p3.memLen ∧ 10 ≠ 11 :=
  ⟨p3_inv, by decide, by decide, by decide⟩
theorem test_witness_InclusiveBoundIsNoCell : p3.Inv := p3_inv
/-- The pointer cells 12 (missing), 10 (4096) and 11 (4097). -/
theorem test_witness_ResolveAnswers :
    resolverState.memLen ≤ (12 : Target).toNat ∧
    ((10 : Target).toNat < resolverState.memLen ∧ (Memory.read resolverState.mem 10).toNat = 4096) ∧
    ((11 : Target).toNat < resolverState.memLen ∧ (Memory.read resolverState.mem 11).toNat = 4097) := by decide
theorem test_witness_EndOfCycleOnNumbers : p3.atInstruction := ⟨p3_inv, rfl, by decide⟩
theorem test_witness_SourceIncrementSchemeAgrees :
    p3.atInstruction ∧ ∀ loc, Sequencing.jump 0 = .jump loc → loc ≤ 4096 :=
  ⟨⟨p3_inv, rfl, by decide⟩, fun _ h => by cases h; decide⟩
/-- The 128th instruction: a STOP, a branch that times out, and a fault. -/
theorem test_witness_LastInstructionEndsTheRun :
    let s := { started [0xC000] [] with icount := 127 }
    s.atInstruction ∧ s.icount.toNat = 127 ∧
    ((after (exec (.stp .direct) s)).map State.run = some .haltedStop) ∧
    ((after (exec (.br .direct 0) s)).map State.run = some .haltedTimeout) ∧
    ((after (exec (.ld .direct 1) s)).map State.run = some .haltedError) :=
  ⟨⟨by constructor <;> decide, rfl, by decide⟩, by decide, by decide, by decide, by decide⟩
/-- SUB, AND, ADD and LD share their hypotheses: an operand at the last cell, a pointer too high, and a location at
4096 that is no cell. -/
theorem test_witness_MemoryOperandInstructions :
    (resolve .direct 11 resolverState = .ok 11 ∧ memRead .operand 11 resolverState = .ok 0x1001) ∧
    resolve .indirect 11 resolverState = .error (.addressOutOfBounds .pointerValue 4097) ∧
    (resolve .indirect 10 resolverState = .ok 4096 ∧
      memRead .operand 4096 resolverState = .error (.addressOutOfBounds .operand 4096)) :=
  ⟨⟨rfl, rfl⟩, rfl, rfl, rfl⟩
theorem test_witness_StcStoresAndClears :
    resolverState.Inv ∧ (resolve .direct 11 resolverState = .ok 11 ∧ 11 < resolverState.memLen) ∧
    resolve .indirect 12 resolverState = .error (.addressOutOfBounds .pointer 12) ∧
    (resolve .direct 12 resolverState = .ok 12 ∧ resolverState.memLen ≤ 12) :=
  ⟨resolverState_inv, ⟨rfl, by decide⟩, rfl, rfl, by decide⟩
/-- Each clause of the fault table: a missing pointer cell, the pointers 4097, 4096 and 2, the direct targets 12 and 11. -/
theorem test_witness_MemoryOperandFaults :
    (Instr.sub .indirect 12 ∈ [Instr.sub .indirect 12, .stc .indirect 12, .and .indirect 12, .add .indirect 12,
      .ld .indirect 12]) ∧ resolverState.memLen ≤ (12 : Target).toNat ∧
    4096 < (Memory.read resolverState.mem (11 : Target).toNat).toNat ∧
    resolverState.memLen ≤ (Memory.read resolverState.mem (10 : Target).toNat).toNat ∧
    ((11 : Target).toNat < resolverState.memLen) ∧
    ((5 : Target).toNat < resolverState.memLen ∧ (Memory.read resolverState.mem (5 : Target).toNat).toNat = 2) := by
  decide
theorem test_witness_BanBranchesWhenNegative :
    resolve .direct 3 { p3 with acc := 32768 } = .ok 3 ∧ 32768 ≤ (32768#16).toNat ∧ (32767#16).toNat < 32768 ∧
    resolve .indirect 11 resolverState = .error (.addressOutOfBounds .pointerValue 4097) :=
  ⟨rfl, by decide, by decide, rfl⟩
theorem test_witness_BrAlwaysBranches :
    resolve .indirect 10 resolverState = .ok 4096 ∧
    resolve .indirect 11 resolverState = .error (.addressOutOfBounds .pointerValue 4097) := ⟨rfl, rfl⟩
theorem test_witness_BranchTargetRange :
    resolverState.atInstruction ∧ resolve .indirect 10 resolverState = .ok 4096 ∧
    ((11 : Target).toNat < resolverState.memLen ∧ 4096 < (Memory.read resolverState.mem (11 : Target).toNat).toNat) :=
  ⟨⟨resolverState_inv, rfl, by decide⟩, rfl, by decide⟩
/-- RD: a pointer cell that is missing, and with `m == 0` the three kinds of input. -/
theorem test_witness_RdReadsOneItem :
    resolve .indirect 1 (started [0xF001] []) = .error (.addressOutOfBounds .pointer 1) ∧
    resolve .direct 1 p3 = .ok 1 ∧ (started [0xE001] []).input = [] ∧
    (started [0xE001] [.invalid]).input = .invalid :: [] ∧ p3.input = .value 0x8000 :: [] :=
  ⟨rfl, rfl, rfl, rfl, rfl⟩
theorem test_witness_WrtAppendsTheAccumulator :
    resolve .direct 3 p3 = .ok 3 ∧
    resolve .indirect 3 (started [0xF003, 0xE002, 0, 0xFFFF] []) = .error (.addressOutOfBounds .pointerValue 65535) :=
  ⟨rfl, rfl⟩
theorem test_witness_DirectInputOutputNeedsNoCell : State.reset.memLen = 0 ∧ p3.input = .value 0x8000 :: [] :=
  ⟨rfl, rfl⟩
/-- One completed and one faulting run of each frame. -/
theorem test_witness_FrameOfAccumulatorInstructions :
    p3.run = .running ∧ (after (exec (.add .direct 9) p3)).map State.run = some .running ∧
    (after (exec (.ld .direct 12) p3)).map State.run = some .haltedError := by decide
theorem test_witness_FrameOfStc :
    p3.run = .running ∧ (after (exec (.stc .indirect 8) p3)).map State.run = some .running ∧
    (after (exec (.stc .direct 12) p3)).map State.run = some .haltedError ∧
    (after (exec (.stc .indirect 12) p3)).map State.run = some .haltedError := by decide
theorem test_witness_FrameOfControlTransfers :
    resolverState.run = .running ∧ (after (exec (.br .direct 3) resolverState)).map State.run = some .running ∧
    (after (exec (.ban .indirect 11) resolverState)).map State.run = some .haltedError := by decide
theorem test_witness_FrameOfInputOutput :
    p3.run = .running ∧ (after (exec (.rd .direct) p3)).map State.run = some .running ∧
    (after (exec (.wrt .direct) p3)).map State.run = some .running ∧
    (after (exec (.rd .direct) State.reset)).map State.cause = some .inputExhausted := by decide
theorem test_witness_OnlyStcWritesMemory :
    (after (exec (.stc .direct 10) { p3 with acc := 5 })).map (fun u => decide (u.mem ≠ p3.mem)) = some true := by decide
theorem test_witness_MemoryLengthIsConstant : (after (step p3)).map State.memLen = some 12 := by decide
theorem test_witness_OnlyTransfersMoveThePc :
    p3.atInstruction ∧ (after (exec (.br .direct 3) p3)).map (fun u => (u.run, u.pc)) = some (.running, 3) :=
  ⟨⟨p3_inv, rfl, by decide⟩, by decide⟩
theorem test_witness_SentinelOnlyByStop :
    p3.Inv ∧ p3.run = .running ∧ (after (step p3)).map State.pc = some 1 ∧
    (after (step (started [0xE002] []))).map State.pc = some 7777 := ⟨p3_inv, rfl, by decide, by decide⟩
theorem test_witness_StreamsFollowInstructionOrder :
    p3.run = .running ∧ (after (exec (.rd .direct) p3)).map State.run = some .running ∧
    (after (exec (.wrt .direct) p3)).map State.run = some .running := by decide
theorem test_witness_OnlyRdDependsOnInput :
    (∀ m, Instr.wrt .direct ≠ .rd m) ∧ (after (exec (.wrt .direct) p3)).isSome := ⟨by simp, by decide⟩
theorem test_witness_OutputIsNeverRead : (after (exec (.wrt .direct) p3)).isSome := by decide
theorem test_witness_FaultsArePrecise :
    (started [0xE000] []).run = .running ∧
    (after (step (started [0xE000] []))).map State.run = some .haltedError ∧
    (after (step (started [0xE001] [.invalid]))).map State.cause = some .invalidInputToken := by decide
theorem test_witness_CountOfCompletedInstructions :
    p3.Inv ∧ p3.run = .running ∧ (after (step p3)).map State.icount = some 1 := ⟨p3_inv, rfl, by decide⟩
/-- An STC to the next cell whose stored word is STP (program P6's second instruction). -/
theorem test_witness_StoreIsSeenByTheNextFetch :
    let s := { started [0xA003, 0x4002, 0xE000, 0xE002] [] with pc := 1, acc := 0xE002 }
    s.Inv ∧ s.run = .running ∧ resolve .direct 2 s = .ok 2 ∧ decode s.acc = .ok (.stp .direct) ∧
    (after (exec (.stc .direct 2) s)).map (fun u => (u.run, u.pc)) = some (.running, 2) :=
  ⟨by constructor <;> decide, rfl, rfl, rfl, by decide⟩
theorem test_witness_StepKeepsTheInvariant : p3.Inv ∧ (after (step p3)).isSome := ⟨p3_inv, by decide⟩
theorem test_witness_LoadHasTheInvariant : (after (load [0xE002] [])).isSome := by decide
theorem test_witness_LoadGivesTheResetValues :
    ([0xE002] : List Word).length ≤ 4096 ∧ 4096 < (List.replicate 4097 (0 : Word)).length :=
  ⟨by decide, by rw [List.length_replicate]; decide⟩
theorem test_witness_EveryRunEndsWithin128Cycles : p3.Inv ∧ (after (load [0xC000] [])).isSome := ⟨p3_inv, by decide⟩
theorem test_witness_EndingShownExactlyWhenHalted :
    p3.Inv ∧ p3.ending = none ∧
    (after (exec (.stp .direct) p3)).map (fun s => (s.ending, decide s.endedWell)) = some (some .normalStop, true) ∧
    (after (exec (.br .direct 12) p3)).map State.ending = some (some .pcOverflow) :=
  ⟨p3_inv, rfl, by decide, by decide⟩
/-- A sum in range and one out of range. -/
theorem test_witness_AluLaws :
    (toSigned16 1 + toSigned16 2 ≤ 32767) ∧ ¬ (toSigned16 0x7FFF + toSigned16 1 ≤ 32767) ∧
    ¬ (-32768 ≤ toSigned16 0x8000 - toSigned16 1) := by decide
theorem test_witness_SignedReading : (32767#16).toNat < 32768 ∧ 32768 ≤ (32768#16).toNat := by decide
theorem test_witness_BitCodecRoundTrip :
    let bits := ['1', '0', '1', '0', '0', '0', '0', '0', '0', '0', '0', '0', '0', '0', '1', '1']
    bits.length = 16 ∧ (∀ c ∈ bits, c = '0' ∨ c = '1') ∧ toInteger bits = some 0xA003 :=
  ⟨rfl, by simp, by rfl⟩

end Sys2Proof.Tests
end

section
/-! Words written down and read signed (00_scope.md section 4): the digits of `BitCodec` and the two halves of
`ToSigned16`. -/

namespace Sys2Proof.Machine

/-- The digit `b`, read after the value `sofar`, doubles the value and adds itself (00_scope.md R8). -/
theorem readDigits_digit_cons (sofar : Nat) (b : Bool) (rest : List Char) :
    readDigits sofar ((if b then '1' else '0') :: rest) = readDigits (2 * sofar + b.toNat) rest := by
  cases b <;> simp [readDigits]

theorem binaryDigits_succ_of_div_eq {value k sofar : Nat} {b : Bool} (h : value / 2 ^ k = 2 * sofar + b.toNat) :
    binaryDigits value (k + 1) = (if b then '1' else '0') :: binaryDigits value k := by
  have hbit : value.testBit k = b := by
    rw [Nat.testBit_eq_decide_div_mod_eq, h]
    cases b <;> simp [Nat.add_mod]
  simp [binaryDigits, hbit]

/-- Reading a string of digits on from `sofar` puts `sofar` above the string's width and the string's own digits
below it. -/
theorem readDigits_eq_some_and_binaryDigits (bits : List Char) (h : ∀ c ∈ bits, c = '0' ∨ c = '1') (sofar : Nat) :
    ∃ n, readDigits sofar bits = some n ∧ n / 2 ^ bits.length = sofar ∧ binaryDigits n bits.length = bits := by
  induction bits generalizing sofar with
  | nil => exact ⟨sofar, rfl, by simp, rfl⟩
  | cons c rest ih =>
    obtain ⟨hc, hrest⟩ := List.forall_mem_cons.mp h
    obtain ⟨b, rfl⟩ : ∃ b : Bool, c = if b then '1' else '0' := by simpa using hc
    obtain ⟨n, hread, hdiv, hdigits⟩ := ih hrest (2 * sofar + b.toNat)
    have hb := b.toNat_lt
    refine ⟨n, by rw [readDigits_digit_cons, hread], ?_, ?_⟩
    · rw [List.length_cons, pow_succ, ← Nat.div_div_eq_div_mul, hdiv]
      omega
    · rw [List.length_cons, binaryDigits_succ_of_div_eq hdiv, hdigits]

theorem toSigned16_of_lt {u : Word} (h : u.toNat < 32768) : toSigned16 u = u.toNat := by
  simp [toSigned16, h]

theorem toSigned16_of_ge {u : Word} (h : 32768 ≤ u.toNat) : toSigned16 u = (u.toNat : Int) - 65536 := by
  simp [toSigned16, h]

/-- Bit 15 is the upper half of the range (00_scope.md R10). -/
theorem getLsbD_fifteen_iff (u : Word) : u.getLsbD 15 = true ↔ 32768 ≤ u.toNat := by
  have hbit : u.getLsbD 15 = decide (32768 ≤ u.toNat) :=
    (BitVec.msb_eq_getLsbD_last u).symm.trans (BitVec.msb_eq_decide u)
  rw [hbit, decide_eq_true_iff]

/-- Settles O56: a string read from 0 has nothing above its 16 digits, so the number is below `2 ^ 16`, where
`ToBitString` shows the number's own digits. -/
theorem bitCodecRoundTrip : Obligations.BitCodecRoundTrip := by
  intro bits hlen hbits
  obtain ⟨n, hread, hdiv, hdigits⟩ := readDigits_eq_some_and_binaryDigits bits hbits 0
  rw [hlen] at hdiv hdigits
  have hn : n < 2 ^ 16 := by omega
  have hne : bits ≠ [] := List.ne_nil_of_length_pos (by omega)
  refine ⟨n, by rw [toInteger_of_ne_nil hne, hread], by omega, ?_⟩
  rw [toBitString_of_lt (by simp) hn, hdigits]

/-- Settles O55, on the two halves of the range: below 32768 and from there on. -/
theorem signedReading : Obligations.SignedReading := by
  intro u
  have hu := u.isLt
  refine ⟨toSigned16_of_lt, toSigned16_of_ge, ?_⟩
  rw [getLsbD_fifteen_iff]
  rcases Nat.lt_or_ge u.toNat 32768 with h | h
  · rw [toSigned16_of_lt h]; omega
  · rw [toSigned16_of_ge h]; omega

end Sys2Proof.Machine
end

section
/-! The state of a run (10_state.md): what executing an instruction can leave, said once, and from it what every step
keeps. -/

namespace Sys2Proof.Machine

/-! ### What an instruction leaves -/

/-- `i`, executed at `s` without a fault, leaves `t` and the sequencing outcome `n` for the end of its cycle: the cycle's
own registers as they were, memory too unless `i` is STC, and a location that the resolver let through
(40_cycle_and_resolver.md R59 step 3, R65, R67). -/
structure Executed (i : Instr) (s : State) (n : Sequencing) (t : State) : Prop where
  pc : t.pc = s.pc
  icount : t.icount = s.icount
  run : t.run = s.run
  cause : t.cause = s.cause
  memLen : t.memLen = s.memLen
  mem : t.mem = s.mem ∨
    (∃ m a, i = .stc m a) ∧ ∃ loc, loc < s.memLen ∧ t.mem = Memory.write s.mem loc s.acc
  jump : ∀ loc, n = .jump loc → loc ≤ 4096
  stop : n = .stop → ∃ m, i = .stp m

/-- Everything executing `i` at `s` can leave: a fault with nothing else done, RD's bad token consumed
(60_exceptions.md R103), or a completed cycle. -/
inductive ExecResult (i : Instr) (s : State) : State → Prop where
  | fault (r : Raise) : r ≠ .invalidInputToken → ExecResult i s (s.raise r)
  | badToken (m : Mode) (later : List InItem) : i = .rd m → s.input = .invalid :: later →
      ExecResult i s ((s.setInput later).raise .invalidInputToken)
  | completed {n : Sequencing} {t : State} : Executed i s n t → ExecResult i s (endCycle n t)

/-- An instruction that leaves memory alone and goes on with the next one. -/
theorem ExecResult.of_seq {i : Instr} {s t : State} (hpc : t.pc = s.pc) (hicount : t.icount = s.icount)
    (hrun : t.run = s.run) (hcause : t.cause = s.cause) (hlen : t.memLen = s.memLen) (hmem : t.mem = s.mem) :
    ExecResult i s (endCycle .seq t) :=
  .completed ⟨hpc, hicount, hrun, hcause, hlen, .inl hmem, nofun, nofun⟩

theorem ExecResult.withLocation {i : Instr} {s : State} {m : Mode} {a : Target} {k : Nat → State}
    (h : ∀ loc, loc ≤ 4096 → ExecResult i s (k loc)) : ExecResult i s (withLocation m a s k) := by
  rcases withLocation_cases m a s k with ⟨stage, addr, -, hk⟩ | ⟨loc, -, hloc, hk⟩
  · exact hk ▸ .fault _ nofun
  · exact hk ▸ h loc hloc

/-- SUB, AND, ADD and LD: the accumulator takes a value made of the operand. -/
theorem ExecResult.withOperand_setAcc {i : Instr} {s : State} {m : Mode} {a : Target} (f : Word → Word) :
    ExecResult i s (withOperand m a s fun v => endCycle .seq (s.setAcc (f v))) := by
  rcases withOperand_cases m a s fun v => endCycle .seq (s.setAcc (f v)) with ⟨stage, addr, hk⟩ | ⟨loc, -, -, hk⟩
  · exact hk ▸ .fault _ nofun
  · exact hk ▸ .of_seq rfl rfl rfl rfl rfl rfl

theorem ExecResult.storeAndClear (m : Mode) (a : Target) (s : State) (loc : Nat) :
    ExecResult (.stc m a) s (storeAndClear s loc) := by
  rcases storeAndClear_cases s loc with ⟨-, h⟩ | ⟨hloc, h⟩
  · exact h ▸ .fault _ nofun
  · exact h ▸ .completed ⟨rfl, rfl, rfl, rfl, rfl, .inr ⟨⟨m, a, rfl⟩, loc, hloc, rfl⟩, nofun, nofun⟩

theorem ExecResult.readItem (m : Mode) (s : State) : ExecResult (.rd m) s (readItem s) := by
  rcases readItem_cases s with ⟨-, h⟩ | ⟨later, hin, h⟩ | ⟨v, later, -, h⟩
  · exact h ▸ .fault _ nofun
  · exact h ▸ .badToken m later rfl hin
  · exact h ▸ .of_seq rfl rfl rfl rfl rfl rfl

/-- BAN, BR and STP do nothing but leave their sequencing outcome (42_branch.md R80, R81; 43_extended_io.md R87). -/
theorem ExecResult.endCycle_self {i : Instr} {s : State} {n : Sequencing} (hjump : ∀ loc, n = .jump loc → loc ≤ 4096)
    (hstop : n = .stop → ∃ m, i = .stp m) : ExecResult i s (endCycle n s) :=
  .completed ⟨rfl, rfl, rfl, rfl, rfl, .inl rfl, hjump, hstop⟩

theorem ExecResult.jump {i : Instr} {s : State} {loc : Nat} (h : loc ≤ 4096) :
    ExecResult i s (endCycle (.jump loc) s) :=
  .endCycle_self (fun _ e => Sequencing.jump.inj e ▸ h) nofun

theorem exec_has_result (i : Instr) (s : State) : ∃ u, exec i s = .next u ∧ ExecResult i s u := by
  cases i with
  | ban m a =>
    refine ⟨_, rfl, .withLocation fun loc hloc => ?_⟩
    split
    · exact .jump hloc
    · exact .endCycle_self nofun nofun
  | sub m a => exact ⟨_, rfl, .withOperand_setAcc (aluSub s.acc)⟩
  | stc m a => exact ⟨_, rfl, .withLocation fun loc _ => .storeAndClear m a s loc⟩
  | and m a => exact ⟨_, rfl, .withOperand_setAcc (aluAnd s.acc)⟩
  | add m a => exact ⟨_, rfl, .withOperand_setAcc (aluAdd s.acc)⟩
  | ld m a => exact ⟨_, rfl, .withOperand_setAcc id⟩
  | br m a => exact ⟨_, rfl, .withLocation fun _ => .jump⟩
  | rd m => exact ⟨_, rfl, .withLocation fun _ _ => .readItem m s⟩
  | stp m => exact ⟨_, rfl, .endCycle_self nofun fun _ => ⟨m, rfl⟩⟩
  | wrt m => exact ⟨_, rfl, .withLocation fun _ _ => .of_seq rfl rfl rfl rfl rfl rfl⟩

theorem ExecResult.of_exec {i : Instr} {s u : State} (h : exec i s = .next u) : ExecResult i s u := by
  obtain ⟨v, hv, hres⟩ := exec_has_result i s
  exact Host.Outcome.next.inj (hv.symm.trans h) ▸ hres

/-- Everything a step can leave: `step_cases` with the execution taken apart. -/
theorem step_next_cases {s u : State} (h : step s = .next u) :
    (s.run ≠ .running ∧ u = s) ∨
    (s.run = .running ∧ ∃ r, fetchInstr s = .error r ∧ u = s.raise r) ∨
    (s.run = .running ∧ ∃ i, fetchInstr s = .ok i ∧ ExecResult i s u) := by
  rcases step_cases s with ⟨hrun, hs⟩ | ⟨hrun, r, hf, hs⟩ | ⟨hrun, i, hf, hs⟩
  · exact .inl ⟨hrun, Host.Outcome.next.inj (h.symm.trans hs)⟩
  · exact .inr (.inl ⟨hrun, r, hf, Host.Outcome.next.inj (h.symm.trans hs)⟩)
  · exact .inr (.inr ⟨hrun, i, hf, .of_exec (hs.symm.trans h)⟩)

theorem step_eq_exec {s : State} {i : Instr} (hrun : s.run = .running) (hfetch : fetchInstr s = .ok i) :
    step s = exec i s := by
  simp [step, cycleExists, hrun, hfetch]

/-! ### Memory as the loader left it -/

/-- The memory part of the invariant (10_state.md R23, R24). -/
structure Memory.Loaded (memLen : Nat) (mem : Memory) : Prop where
  lenBound : memLen ≤ 4096
  canonical : Memory.wf mem
  inside : ∀ c ∈ mem, c.1 < memLen

theorem Memory.Loaded.write {memLen loc : Nat} {mem : Memory} (h : Memory.Loaded memLen mem) (hloc : loc < memLen)
    (v : Word) : Memory.Loaded memLen (Memory.write mem loc v) where
  lenBound := h.lenBound
  canonical := Memory.write_wf loc v h.canonical
  inside c hc := by
    rcases Memory.mem_write hc with hc | ⟨rfl, -⟩
    · exact h.inside c hc
    · exact hloc

theorem Memory.Loaded.ofImage {image : List Word} (h : image.length ≤ 4096) :
    Memory.Loaded image.length (Memory.ofImage 0 image) where
  lenBound := h
  canonical := Memory.ofImage_wf image 0
  inside c hc := by
    obtain ⟨-, hlt, -⟩ := Memory.mem_ofImage hc
    omega

theorem Executed.loaded {i : Instr} {s t : State} {n : Sequencing} (h : Executed i s n t)
    (hs : Memory.Loaded s.memLen s.mem) : Memory.Loaded t.memLen t.mem := by
  rw [h.memLen]
  rcases h.mem with hmem | ⟨-, loc, hloc, hmem⟩
  · exact hmem ▸ hs
  · exact hmem ▸ hs.write hloc s.acc

/-! ### The invariant, one run state at a time -/

theorem State.Inv.loaded {s : State} (h : s.Inv) : Memory.Loaded s.memLen s.mem :=
  ⟨h.lenBound, h.memCanonical, h.memInside⟩

theorem State.Inv.cause_eq_none {s : State} (h : s.Inv) (hrun : s.run = .running) : s.cause = .none := by
  by_contra hc
  simp [h.causeOfError.mp hc] at hrun

theorem State.Inv.pc_le {s : State} (h : s.Inv) (hrun : s.run = .running) : s.pc.toNat ≤ 4096 := by
  have hlen := h.lenBound
  rcases (h.running hrun).1 with hlt | ⟨hzero, -⟩
  · omega
  · simp [hzero]

theorem State.inv_of_running {s : State} (hmem : Memory.Loaded s.memLen s.mem) (hrun : s.run = .running)
    (hcause : s.cause = .none) (hpc : s.pcAtCell) (hcount : s.icount.toNat < 128) : s.Inv where
  lenBound := hmem.lenBound
  memCanonical := hmem.canonical
  memInside := hmem.inside
  causeOfError := by simp [hrun, hcause]
  countBound := by omega
  running _ := ⟨hpc, hcount⟩
  atError := by simp [hrun]
  atStop := by simp [hrun]
  atOverflow := by simp [hrun]
  atTimeout := by simp [hrun]

theorem State.inv_of_halted {s : State} {r : RunState} (hmem : Memory.Loaded s.memLen s.mem)
    (hcause : s.cause = .none) (hcount : s.icount.toNat ≤ 128) (hrun : r ≠ .running ∧ r ≠ .haltedError)
    (hstop : r = .haltedStop → s.pc.toNat = 7777)
    (hoverflow : r = .haltedPcOverflow → s.memLen ≤ s.pc.toNat ∧ s.pc.toNat ≤ 4096)
    (htimeout : r = .haltedTimeout → s.pc.toNat < s.memLen ∧ s.icount.toNat = 128) : (s.setRun r).Inv where
  lenBound := hmem.lenBound
  memCanonical := hmem.canonical
  memInside := hmem.inside
  causeOfError := by simp [hrun, hcause]
  countBound := hcount
  running := by simp [hrun]
  atError := by simp [hrun]
  atStop := hstop
  atOverflow := hoverflow
  atTimeout := htimeout

theorem Raise.cause_ne_none (r : Raise) : r.cause ≠ .none := by
  cases r <;> simp [Raise.cause]

/-- A fault of a running machine keeps the invariant, whatever input it has consumed (60_exceptions.md R100, R103). -/
theorem State.Inv.raise_setInput {s : State} (h : s.Inv) (hrun : s.run = .running) (items : List InItem) (r : Raise) :
    ((s.setInput items).raise r).Inv where
  lenBound := h.lenBound
  memCanonical := h.memCanonical
  memInside := h.memInside
  causeOfError := by simp [r.cause_ne_none]
  countBound := h.countBound
  running := by simp
  atError _ := h.running hrun
  atStop := by simp
  atOverflow := by simp
  atTimeout := by simp

theorem State.Inv.raise {s : State} (h : s.Inv) (hrun : s.run = .running) (r : Raise) : (s.raise r).Inv :=
  h.raise_setInput hrun s.input r

/-! ### The end of the cycle -/

theorem checkEnd_run_ne {s : State} {r : RunState} (hs : s.run ≠ r) (hoverflow : r ≠ .haltedPcOverflow)
    (htimeout : r ≠ .haltedTimeout) : (checkEnd s).run ≠ r := by
  rcases checkEnd_cases s with ⟨-, e⟩ | ⟨-, -, e⟩ | ⟨-, -, e⟩ <;> rw [e]
  · exact hoverflow.symm
  · exact htimeout.symm
  · exact hs

theorem endCycle_run_ne_haltedError {s : State} (n : Sequencing) (h : s.run = .running) :
    (endCycle n s).run ≠ .haltedError := by
  cases n with
  | seq => exact checkEnd_run_ne (by simp [h]) nofun nofun
  | jump loc => exact checkEnd_run_ne (by simp [h]) nofun nofun
  | stop => simp

theorem endCycle_run_eq_haltedStop_iff {s : State} (n : Sequencing) (h : s.run = .running) :
    (endCycle n s).run = .haltedStop ↔ n = .stop := by
  have hne : ∀ p, (checkEnd (s.countInstruction.setPc p)).run ≠ .haltedStop := fun p =>
    checkEnd_run_ne (by simp [h]) nofun nofun
  cases n with
  | seq => exact iff_of_false (hne _) nofun
  | jump loc => exact iff_of_false (hne _) nofun
  | stop => simp

/-- On the addresses a cycle can meet, the new `pc` is the number the outcome says, with no wrap. -/
theorem endCycle_pc_toNat {s : State} {n : Sequencing} (hpc : s.pc.toNat < 4096)
    (hjump : ∀ loc, n = .jump loc → loc ≤ 4096) :
    ((endCycle n s).pc.toNat = 7777 ∧ n = .stop) ∨ ((endCycle n s).pc.toNat ≤ 4096 ∧ n ≠ .stop) := by
  cases n with
  | seq => right; simp [BitVec.toNat_add]; omega
  | jump loc => have := hjump loc rfl; right; simp; omega
  | stop => simp

/-- A count below the ceiling has room for one more: the addition does not wrap (10_state.md R22). -/
theorem endCycle_icount_toNat {s : State} (n : Sequencing) (h : s.icount.toNat < 128) :
    (endCycle n s).icount.toNat = s.icount.toNat + 1 := by
  rw [endCycle_icount, BitVec.toNat_add_of_lt (by simp; omega)]
  rfl

theorem checkEnd_inv {s : State} (hmem : Memory.Loaded s.memLen s.mem) (hrun : s.run = .running)
    (hcause : s.cause = .none) (hpc : s.pc.toNat ≤ 4096) (hcount : s.icount.toNat ≤ 128) : (checkEnd s).Inv := by
  rcases checkEnd_cases s with ⟨hge, e⟩ | ⟨hlt, h128, e⟩ | ⟨hlt, h128, e⟩ <;> rw [e]
  · exact State.inv_of_halted hmem hcause hcount (by simp) nofun (fun _ => ⟨hge, hpc⟩) nofun
  · exact State.inv_of_halted hmem hcause hcount (by simp) nofun nofun fun _ => ⟨hlt, by simp [h128]⟩
  · have hne : s.icount.toNat ≠ 128 := fun h => h128 (BitVec.eq_of_toNat_eq h)
    exact State.inv_of_running hmem hrun hcause (.inl hlt) (by omega)

/-- The end of a cycle of a running machine whose memory is in order gives the invariant. -/
theorem endCycle_inv {s : State} {n : Sequencing} (hmem : Memory.Loaded s.memLen s.mem) (hrun : s.run = .running)
    (hcause : s.cause = .none) (hpc : s.pc.toNat < 4096) (hcount : s.icount.toNat < 128)
    (hjump : ∀ loc, n = .jump loc → loc ≤ 4096) : (endCycle n s).Inv := by
  have hcount' := endCycle_icount_toNat n hcount
  have hpc' := endCycle_pc_toNat hpc hjump
  rw [endCycle_icount] at hcount'
  cases n with
  | seq => exact checkEnd_inv hmem hrun hcause (by simpa using hpc') (hcount'.trans_le hcount)
  | jump loc => exact checkEnd_inv hmem hrun hcause (by simpa using hpc') (hcount'.trans_le hcount)
  | stop => exact State.inv_of_halted hmem hcause (hcount'.trans_le hcount) (by simp) (fun _ => rfl) nofun nofun

/-- Settles O48: a halted machine rests, a fault keeps all but `run`, `cause` and the input, and a completed cycle ends
with the checks that give each run state its range. -/
theorem stepKeepsTheInvariant : Obligations.StepKeepsTheInvariant := by
  intro s u hs hstep
  rcases step_next_cases hstep with ⟨-, rfl⟩ | ⟨hrun, r, -, rfl⟩ | ⟨hrun, i, hfetch, hres⟩
  · exact hs
  · exact hs.raise hrun r
  · obtain ⟨-, hcount⟩ := hs.running hrun
    have hcell := (fetchInstr_ok.mp hfetch).1
    have hlen := hs.lenBound
    cases hres with
    | fault r _ => exact hs.raise hrun r
    | badToken m later _ _ => exact hs.raise_setInput hrun later _
    | completed h =>
      exact endCycle_inv (h.loaded hs.loaded) (h.run.trans hrun) (h.cause.trans (hs.cause_eq_none hrun))
        (by rw [h.pc]; omega) (by rwa [h.icount]) h.jump

/-! ### Reset -/

theorem load_of_le {image : List Word} (h : image.length ≤ 4096) (input : List InItem) :
    load image input = .next
      { State.reset with memLen := image.length, mem := Memory.ofImage 0 image, input := input } := by
  rw [load, if_pos (loadableImage_iff.mpr h)]

theorem load_of_gt {image : List Word} (h : 4096 < image.length) (input : List InItem) :
    load image input = .refused .imageTooLong := by
  rw [load, if_neg (by rw [loadableImage_iff]; omega)]

/-- Settles O50: a loaded image is memory in order, and the run begins at cell 0 or on the empty program. -/
theorem loadHasTheInvariant : Obligations.LoadHasTheInvariant := by
  intro image input s h
  rcases Nat.lt_or_ge 4096 image.length with hgt | hle
  · rw [load_of_gt hgt] at h
    cases h
  · rw [load_of_le hle] at h
    cases h
    have hcell : 0 < image.length ∨ image.length = 0 := by omega
    exact State.inv_of_running (.ofImage hle) rfl rfl (hcell.imp_right fun h0 => ⟨rfl, h0⟩) (Nat.zero_lt_succ _)

/-- Settles O49: the reset state is the load of the empty image. -/
theorem resetHasTheInvariant : Obligations.ResetHasTheInvariant :=
  loadHasTheInvariant [] [] State.reset load_empty

/-- Settles O51: the fields are those `load` writes down, and each word of the image reads back at its address. -/
theorem loadGivesTheResetValues : Obligations.LoadGivesTheResetValues := by
  refine fun image input => ⟨fun hle => ?_, fun hgt => load_of_gt hgt input⟩
  refine ⟨_, load_of_le hle input, rfl, rfl, rfl, rfl, rfl, rfl, rfl, rfl, fun k hk => ?_⟩
  simpa [hk] using Memory.read_ofImage image 0 k

/-! ### Each piece of state under one step -/

/-- Settles O19: the cell at `pc` is below 4096, so the number stored is 7777 in the case of Stop alone. -/
theorem sourceIncrementSchemeAgrees : Obligations.SourceIncrementSchemeAgrees := by
  rintro s n ⟨hs, hrun, hcell⟩ hjump stored rfl
  have hlen := hs.lenBound
  rw [endCycle_run_eq_haltedStop_iff n hrun]
  cases n with
  | seq => simp [BitVec.toNat_add]; omega
  | jump loc =>
    have hloc := hjump loc rfl
    simp; omega
  | stop => simp

/-- Settles O38: no fault touches memory, and of the completed instructions STC alone does. -/
theorem onlyStcWritesMemory : Obligations.OnlyStcWritesMemory := by
  intro i s u hexec hne
  cases ExecResult.of_exec hexec with
  | fault r _ => exact absurd rfl hne
  | badToken m later _ _ => exact absurd rfl hne
  | completed h =>
    rw [endCycle_mem] at hne
    rcases h.mem with hmem | ⟨hstc, -⟩
    · exact absurd hmem hne
    · exact hstc

/-- Settles O39: neither a rest nor a fault nor a completed cycle writes MEMLEN. -/
theorem memoryLengthIsConstant : Obligations.MemoryLengthIsConstant := by
  intro s u hstep
  rcases step_next_cases hstep with ⟨-, rfl⟩ | ⟨-, r, -, rfl⟩ | ⟨-, i, -, hres⟩
  · rfl
  · rfl
  · cases hres with
    | fault r _ => rfl
    | badToken m later _ _ => rfl
    | completed h => rw [endCycle_memLen, h.memLen]

/-- Settles O41: STP stores the sentinel; a fault keeps a `pc` of at most 4096, and no other outcome passes 4096. -/
theorem sentinelOnlyByStop : Obligations.SentinelOnlyByStop := by
  intro s u hs hrun hstep
  have hpc := hs.pc_le hrun
  constructor
  · intro h7777
    rcases step_next_cases hstep with ⟨hhalt, -⟩ | ⟨-, r, -, rfl⟩ | ⟨-, i, hfetch, hres⟩
    · exact absurd hrun hhalt
    · rw [State.raise_pc] at h7777
      omega
    · have hcell := (fetchInstr_ok.mp hfetch).1
      have hlen := hs.lenBound
      cases hres with
      | fault r _ => rw [State.raise_pc] at h7777; omega
      | badToken m later _ _ => rw [State.raise_pc, State.setInput_pc] at h7777; omega
      | completed h =>
        rcases endCycle_pc_toNat (by rw [h.pc]; omega) h.jump with ⟨-, hstop⟩ | ⟨hle, -⟩
        · obtain ⟨m, rfl⟩ := h.stop hstop
          exact ⟨m, hfetch⟩
        · omega
  · rintro ⟨m, hfetch⟩
    cases (step_eq_exec hrun hfetch).symm.trans hstep
    rfl

/-- Settles O46: a fault keeps the count, and a completed cycle of a running machine adds 1 and is no fault. -/
theorem countOfCompletedInstructions : Obligations.CountOfCompletedInstructions := by
  intro s u hs hrun hstep
  obtain ⟨-, hcount⟩ := hs.running hrun
  rcases step_next_cases hstep with ⟨hhalt, -⟩ | ⟨-, r, -, rfl⟩ | ⟨-, i, -, hres⟩
  · exact absurd hrun hhalt
  · simp
  · cases hres with
    | fault r _ => simp
    | badToken m later _ _ => simp
    | completed h =>
      rw [if_neg (endCycle_run_ne_haltedError _ (h.run.trans hrun)), endCycle_icount_toNat _ (by rwa [h.icount]),
        h.icount]

/-! ### The output -/

theorem storeAndClear_of_lt {s : State} {loc : Nat} (h : loc < s.memLen) :
    storeAndClear s loc = endCycle .seq ((s.setMem (Memory.write s.mem loc s.acc)).setAcc 0#16) :=
  ((storeAndClear_cases s loc).resolve_left fun hfault => Nat.not_le.mpr h hfault.1).2

theorem storeAndClear_of_ge {s : State} {loc : Nat} (h : s.memLen ≤ loc) :
    storeAndClear s loc = s.raise (.addressOutOfBounds .operand loc) :=
  ((storeAndClear_cases s loc).resolve_right fun hdone => Nat.not_lt.mpr h hdone.1).2

/-- The state with other output before its own. -/
def State.precedeOut (earlier : List Word) (s : State) : State := { s with out := earlier ++ s.out }

section
variable (earlier : List Word) (s : State)

theorem endCycle_precedeOut (n : Sequencing) :
    endCycle n (s.precedeOut earlier) = (endCycle n s).precedeOut earlier := by
  simp [State.precedeOut, endCycle_with_out]

theorem outEmit_precedeOut (v : Word) :
    outEmit v (s.precedeOut earlier) = (outEmit v s).precedeOut earlier := by
  simp [outEmit, State.precedeOut]

theorem resolve_precedeOut (m : Mode) (a : Target) : resolve m a (s.precedeOut earlier) = resolve m a s := rfl

theorem withLocation_precedeOut {m : Mode} {a : Target} {k k' : Nat → State}
    (h : ∀ loc, k' loc = (k loc).precedeOut earlier) :
    withLocation m a (s.precedeOut earlier) k' = (withLocation m a s k).precedeOut earlier := by
  cases hr : resolve m a s with
  | error r => rw [withLocation_error hr, withLocation_error ((resolve_precedeOut ..).trans hr)]; rfl
  | ok loc => rw [withLocation_ok hr, withLocation_ok ((resolve_precedeOut ..).trans hr), h]

theorem withCell_precedeOut {loc : Nat} {k k' : Word → State} (h : ∀ v, k' v = (k v).precedeOut earlier) :
    withCell loc (s.precedeOut earlier) k' = (withCell loc s k).precedeOut earlier := by
  rcases Nat.lt_or_ge loc s.memLen with hlt | hge
  · rw [withCell_ok hlt, withCell_ok (s := s.precedeOut earlier) hlt, h]; rfl
  · rw [withCell_error hge, withCell_error (s := s.precedeOut earlier) hge]; rfl

theorem withOperand_setAcc_precedeOut (m : Mode) (a : Target) (f : Word → Word) :
    (withOperand m a (s.precedeOut earlier) fun v => endCycle .seq ((s.precedeOut earlier).setAcc (f v))) =
      (withOperand m a s fun v => endCycle .seq (s.setAcc (f v))).precedeOut earlier :=
  withLocation_precedeOut earlier s fun _ => withCell_precedeOut earlier s fun v =>
    endCycle_precedeOut earlier (s.setAcc (f v)) .seq

theorem storeAndClear_precedeOut (loc : Nat) :
    storeAndClear (s.precedeOut earlier) loc = (storeAndClear s loc).precedeOut earlier := by
  rcases Nat.lt_or_ge loc s.memLen with hlt | hge
  · rw [storeAndClear_of_lt hlt, storeAndClear_of_lt (s := s.precedeOut earlier) hlt]
    exact endCycle_precedeOut earlier ((s.setMem (Memory.write s.mem loc s.acc)).setAcc 0#16) .seq
  · rw [storeAndClear_of_ge hge, storeAndClear_of_ge (s := s.precedeOut earlier) hge]
    rfl

theorem readItem_precedeOut : readItem (s.precedeOut earlier) = (readItem s).precedeOut earlier := by
  have hinput : (s.precedeOut earlier).input = s.input := rfl
  unfold readItem inTake
  rw [hinput]
  cases s.input with
  | nil => rfl
  | cons item later =>
    cases item with
    | invalid => rfl
    | value v => exact endCycle_precedeOut earlier ((s.setInput later).setAcc v) .seq

theorem exec_precedeOut (i : Instr) {u : State} (h : exec i s = .next u) :
    exec i (s.precedeOut earlier) = .next (u.precedeOut earlier) := by
  cases i <;> cases h <;> apply congrArg Host.Outcome.next
  case ban m a => exact withLocation_precedeOut earlier s fun _ => endCycle_precedeOut earlier s _
  case sub m a => exact withOperand_setAcc_precedeOut earlier s m a (aluSub s.acc)
  case stc m a => exact withLocation_precedeOut earlier s (storeAndClear_precedeOut earlier s)
  case and m a => exact withOperand_setAcc_precedeOut earlier s m a (aluAnd s.acc)
  case add m a => exact withOperand_setAcc_precedeOut earlier s m a (aluAdd s.acc)
  case ld m a => exact withOperand_setAcc_precedeOut earlier s m a id
  case br m a => exact withLocation_precedeOut earlier s fun _ => endCycle_precedeOut earlier s _
  case rd m => exact withLocation_precedeOut earlier s fun _ => readItem_precedeOut earlier s
  case stp m => exact endCycle_precedeOut earlier s .stop
  case wrt m =>
    exact withLocation_precedeOut earlier s fun _ =>
      (congrArg _ (outEmit_precedeOut earlier s s.acc)).trans (endCycle_precedeOut earlier _ .seq)

end

/-- Settles O44: every operation an instruction is made of commutes with putting output before the state's own. -/
theorem outputIsNeverRead : Obligations.OutputIsNeverRead :=
  fun i s _ earlier h => exec_precedeOut earlier s i h

end Sys2Proof.Machine
end

section
/-! Memory (20_memory.md): the two checked accesses, the address that is no cell, and a store seen by the next fetch. -/

namespace Sys2Proof.Machine

/-! ### The two accesses -/

/-- Settles O14: the two answers of a read, on either side of MEMLEN. -/
theorem readUnderTheLengthCheck : Obligations.ReadUnderTheLengthCheck :=
  fun _ _ _ => ⟨fun hge => memRead_error.mpr ⟨hge, rfl⟩, fun hlt => memRead_ok.mpr ⟨hlt, rfl⟩⟩

/-- Settles O15: below MEMLEN the state written is the old one with a written memory, whose canonical form makes the
cell read back as the word. -/
theorem writeReplacesOneWord : Obligations.WriteReplacesOneWord := by
  refine fun a v s hs => ⟨fun hge => memWrite_error.mpr ⟨hge, rfl⟩, fun hlt => ?_⟩
  exact ⟨_, memWrite_ok.mpr ⟨hlt, rfl⟩, rfl, Memory.read_write_same a v hs.memCanonical,
    fun _ hne => Memory.read_write_other hne v s.mem⟩

/-- Settles O16: the range check counts 4096 in, but MEMLEN is at most 4096, so both accesses fail their own check. -/
theorem inclusiveBoundIsNoCell : Obligations.InclusiveBoundIsNoCell := by
  refine ⟨rangeOK_iff.mpr le_rfl, by decide, fun s _ _ hs => ?_⟩
  exact ⟨memRead_error.mpr ⟨hs.lenBound, rfl⟩, memWrite_error.mpr ⟨hs.lenBound, rfl⟩⟩

/-! ### The store of STC -/

theorem exec_stc_of_resolve {m : Mode} {t : Target} {s : State} {loc : Nat} (h : resolve m t s = .ok loc) :
    exec (.stc m t) s = .next (storeAndClear s loc) :=
  congrArg Host.Outcome.next (withLocation_ok h)

/-- A store with which the run goes on was no fault: its cell is loaded and reads as the accumulator it stored. -/
theorem storeAndClear_read_of_running {s : State} {loc : Nat} (hs : s.Inv)
    (hrun : (storeAndClear s loc).run = .running) :
    loc < (storeAndClear s loc).memLen ∧ Memory.read (storeAndClear s loc).mem loc = s.acc := by
  rcases storeAndClear_cases s loc with ⟨-, hfault⟩ | ⟨hloc, hdone⟩
  · simp [hfault] at hrun
  · simp [hdone, hloc, Memory.read_write_same loc s.acc hs.memCanonical]

/-- Settles O47: the word that the next fetch finds at `pc` is the accumulator just stored there. -/
theorem storeIsSeenByTheNextFetch : Obligations.StoreIsSeenByTheNextFetch := by
  intro m t s u loc i hs _ hexec hresolve hrun hpc hdecode
  cases (exec_stc_of_resolve hresolve).symm.trans hexec
  obtain ⟨hloc, hread⟩ := storeAndClear_read_of_running hs hrun
  exact step_eq_exec hrun (fetchInstr_ok.mpr (by rw [hpc, hread]; exact ⟨hloc, hdecode⟩))

end Sys2Proof.Machine
end

section
/-! Words and instructions (30_encoding.md): the fields of a word as numbers, and what the decoder answers for each
value of the opcode field and of the target. -/

namespace Sys2Proof

/-! ### The fields of a word -/

theorem opField_toNat (w : Word) : (opField w).toNat = w.toNat / 8192 := by
  have hw := w.isLt
  rw [opField, BitVec.extractLsb'_toNat, Nat.shiftRight_eq_div_pow]
  omega

/-- The flag, as a bit, is bit 12 of the word (30_encoding.md R47, R49). -/
theorem modeField_bit (w : Word) : (modeField w).bit = w.extractLsb' 12 1 := by
  unfold modeField
  split_ifs with h
  · exact h.symm
  · exact ((BitVec.eq_zero_or_eq_one _).resolve_right h).symm

theorem modeField_bit_toNat (w : Word) : (modeField w).bit.toNat = w.toNat / 4096 % 2 := by
  rw [modeField_bit, BitVec.extractLsb'_toNat, Nat.shiftRight_eq_div_pow]

theorem targetField_toNat (w : Word) : (targetField w).toNat = w.toNat % 4096 := by
  rw [targetField, BitVec.extractLsb'_toNat, Nat.shiftRight_zero]

/-- Settles O1: the fields are quotients and remainders of the word's number, and they cover all its 16 bits. -/
theorem fieldsOfAWord : Obligations.FieldsOfAWord := by
  intro w
  have hop := opField_toNat w
  have hmode := modeField_bit_toNat w
  have htarget := targetField_toNat w
  exact ⟨hop, hmode, htarget, by omega⟩

/-! ### The decoder on each opcode -/

/-- The three bits that `decode` looks at are the bits of the opcode field. -/
theorem getLsbD_of_opField_eq {w : Word} {op : BitVec 3} (h : opField w = op) :
    w.getLsbD 15 = op.getLsbD 2 ∧ w.getLsbD 14 = op.getLsbD 1 ∧ w.getLsbD 13 = op.getLsbD 0 := by
  subst h
  simp [opField]

theorem decode_of_opField_eq_seven {w : Word} (h : opField w = 7#3) : decode w = decodeExtended w := by
  obtain ⟨h15, h14, h13⟩ := getLsbD_of_opField_eq h
  rw [decode, h15, h14, h13]
  rfl

theorem decodeExtended_eq_ok {w : Word} {i : Instr} :
    decodeExtended w = .ok i ↔
      (targetField w = 1#12 ∧ i = .rd (modeField w)) ∨ (targetField w = 2#12 ∧ i = .stp (modeField w)) ∨
      (targetField w = 3#12 ∧ i = .wrt (modeField w)) := by
  unfold decodeExtended
  split_ifs with h1 h2 h3
  · simp [h1, eq_comm]
  · simp [h2, eq_comm]
  · simp [h3, eq_comm]
  · simp [h1, h2, h3]

theorem decodeExtended_eq_error {w : Word} :
    decodeExtended w = .error (.illegalExtended w) ↔
      targetField w ≠ 1#12 ∧ targetField w ≠ 2#12 ∧ targetField w ≠ 3#12 := by
  unfold decodeExtended
  split_ifs with h1 h2 h3
  · simp [h1]
  · simp [h2]
  · simp [h3]
  · simp [h1, h2, h3]

/-- Settles O2: the bits of each of the first seven opcodes lead to its own row, and the eighth to the selectors. -/
theorem baseOpcodesDecode : Obligations.BaseOpcodesDecode := by
  intro w
  refine ⟨?ban, ?sub, ?stc, ?and, ?add, ?ld, ?br, ?extended⟩
  case extended =>
    intro h i hdecode
    rw [decode_of_opField_eq_seven h] at hdecode
    rcases decodeExtended_eq_ok.mp hdecode with ⟨-, hrd⟩ | ⟨-, hstp⟩ | ⟨-, hwrt⟩
    · exact ⟨_, .inl hrd⟩
    · exact ⟨_, .inr (.inl hstp)⟩
    · exact ⟨_, .inr (.inr hwrt)⟩
  all_goals
    intro h
    obtain ⟨h15, h14, h13⟩ := getLsbD_of_opField_eq h
    rw [decode, h15, h14, h13]
    rfl

/-- Settles O3: under opcode 7 the decoder is the dispatch on the target, whose answer names its selector. -/
theorem extendedSelectorsDecode : Obligations.ExtendedSelectorsDecode := by
  intro w h m
  rw [decode_of_opField_eq_seven h]
  simp [decodeExtended_eq_ok]

/-! ### The words that are no instruction -/

/-- A base opcode makes every word an instruction, whatever its target (30_encoding.md R51). -/
theorem exists_decode_eq_ok_of_opField_ne_seven {w : Word} (h : opField w ≠ 7#3) : ∃ i, decode w = .ok i := by
  obtain ⟨hban, hsub, hstc, hand, hadd, hld, hbr, -⟩ := baseOpcodesDecode w
  have hbase : ∀ op : BitVec 3, op ≠ 7#3 →
      op = 0#3 ∨ op = 1#3 ∨ op = 2#3 ∨ op = 3#3 ∨ op = 4#3 ∨ op = 5#3 ∨ op = 6#3 := by decide
  rcases hbase _ h with h | h | h | h | h | h | h
  · exact ⟨_, hban h⟩
  · exact ⟨_, hsub h⟩
  · exact ⟨_, hstc h⟩
  · exact ⟨_, hand h⟩
  · exact ⟨_, hadd h⟩
  · exact ⟨_, hld h⟩
  · exact ⟨_, hbr h⟩

theorem legalWord_iff {w : Word} :
    legalWord w = true ↔
      (opField w = 7#3 → targetField w = 1#12 ∨ targetField w = 2#12 ∨ targetField w = 3#12) := by
  simp only [legalWord, Bool.or_eq_true, Bool.and_eq_true, bne_iff_ne, decide_eq_true_iff, ← BitVec.toNat_inj,
    opField_toNat, targetField_toNat, BitVec.toNat_ofNat]
  omega

/-- Settles O4: a base opcode is neither refused nor illegal, and under opcode 7 both answers are the target's. -/
theorem illegalWordsAreRefused : Obligations.IllegalWordsAreRefused := by
  intro w
  rw [legalWord_iff]
  by_cases h : opField w = 7#3
  · rw [decode_of_opField_eq_seven h, decodeExtended_eq_error]
    simp [h, decodeExtended_eq_ok, exists_or]
  · obtain ⟨i, hi⟩ := exists_decode_eq_ok_of_opField_ne_seven h
    simp [h, hi]

end Sys2Proof
end

section
/-! The cycle and the resolver (40_cycle_and_resolver.md): the step on each answer of the fetch, every answer of
`Resolve`, the end of the cycle on plain numbers, and the input that only RD reads. -/

namespace Sys2Proof.Machine

/-! ### The step -/

theorem step_of_run_ne_running {s : State} (h : s.run ≠ .running) : step s = .next s := by
  simp [step, cycleExists, h, idle]

theorem step_eq_raise {s : State} {r : Raise} (hrun : s.run = .running) (hfetch : fetchInstr s = .error r) :
    step s = .next (s.raise r) := by
  simp [step, cycleExists, hrun, hfetch, takeFault]

theorem fetchInstr_of_memLen_le_pc {s : State} (h : s.memLen ≤ s.pc.toNat) :
    fetchInstr s = .error (.addressOutOfBounds .fetch s.pc.toNat) := by
  simp [fetchInstr, (memRead_error (st := .fetch)).mpr ⟨h, rfl⟩]

theorem core_run_succ {s u : State} (h : step s = .next u) (n : Nat) :
    Host.Core.run Sys2Proof.core (n + 1) s = Host.Core.run Sys2Proof.core n u := by
  have hstep : Sys2Proof.core.step s = .next u := h
  simp only [Host.Core.run, hstep]

/-- Settles O8: the three hypotheses are what makes the fetch answer `i`. -/
theorem stepRunsTheDecodedInstruction : Obligations.StepRunsTheDecodedInstruction :=
  fun _ _ hrun hcell hdecode => step_eq_exec hrun (fetchInstr_ok.mpr ⟨hcell, hdecode⟩)

/-- Settles O11: the fetch answers the fault; the reset state, which has no cell, is one such state. -/
theorem fetchOutsideTheProgramFaults : Obligations.FetchOutsideTheProgramFaults := by
  have hfault : ∀ s : State, s.run = .running → s.memLen ≤ s.pc.toNat →
      step s = .next (s.faulted .addressOutOfBounds) :=
    fun s hrun hpc => step_eq_raise hrun (fetchInstr_of_memLen_le_pc hpc)
  exact ⟨hfault, hfault State.reset rfl (Nat.zero_le _)⟩

/-- Settles O12, by induction on the number of steps: each one rests. -/
theorem haltedStatesAreAbsorbing : Obligations.HaltedStatesAreAbsorbing := by
  intro s hrun n
  induction n with
  | zero => rfl
  | succ n ih => rw [core_run_succ (step_of_run_ne_running hrun), ih]

/-! ### The resolver -/

/-- The range check on a 12-bit target cannot fail (40_cycle_and_resolver.md R66). -/
theorem rangeOK_target (t : Target) : rangeOK t.toNat = true :=
  rangeOK_iff.mpr t.isLt.le

theorem resolve_direct (t : Target) (s : State) : resolve .direct t s = .ok t.toNat := by
  simp [resolve, rangeOK_target]

theorem resolve_indirect_of_ge {t : Target} {s : State} (h : s.memLen ≤ t.toNat) :
    resolve .indirect t s = .error (.addressOutOfBounds .pointer t.toNat) := by
  simp [resolve, rangeOK_target, (memRead_error (st := .pointer)).mpr ⟨h, rfl⟩]

/-- At a loaded pointer cell the answer is the range check's on the whole word (decision D3). -/
theorem resolve_indirect_of_lt {t : Target} {s : State} (h : t.toNat < s.memLen) :
    resolve .indirect t s =
      if (Memory.read s.mem t.toNat).toNat ≤ 4096 then .ok (Memory.read s.mem t.toNat).toNat
      else .error (.addressOutOfBounds .pointerValue (Memory.read s.mem t.toNat).toNat) := by
  simp [resolve, rangeOK_target, (memRead_ok (st := .pointer)).mpr ⟨h, rfl⟩, rangeOK_iff]

/-- Settles O17: one equation for each mode and each side of MEMLEN. -/
theorem resolveAnswers : Obligations.ResolveAnswers := by
  refine fun t s => ⟨resolve_direct t s, resolve_indirect_of_ge, ?_⟩
  rintro hcell p rfl
  rw [resolve_indirect_of_lt hcell]
  exact ⟨fun hle => if_pos hle, fun hgt => if_neg (Nat.not_le.mpr hgt)⟩

/-! ### The end of the cycle -/

/-- The checks of a cycle that was running leave the run state that `runAfter` gives on the numbers. -/
theorem checkEnd_eq_setRun_runAfter {s : State} (h : s.run = .running) :
    checkEnd s = s.setRun (runAfter s.memLen s.pc.toNat s.icount.toNat) := by
  unfold runAfter
  rcases checkEnd_cases s with ⟨hge, e⟩ | ⟨hlt, h128, e⟩ | ⟨hlt, h128, e⟩ <;> rw [e]
  · rw [if_pos hge]
  · rw [if_neg (Nat.not_le.mpr hlt), if_pos (by rw [h128]; rfl)]
  · have hne : s.icount.toNat ≠ 128 := fun h => h128 (BitVec.eq_of_toNat_eq h)
    rw [if_neg (Nat.not_le.mpr hlt), if_neg hne, ← h]
    rfl

theorem add_one_eq_ofNat_toNat_succ {w : Nat} (b : BitVec w) : b + 1#w = BitVec.ofNat w (b.toNat + 1) := by
  simp [BitVec.ofNat_add]

/-- The count, the new `pc` and the checks of a running machine, as long as neither number wraps. -/
theorem checkEnd_countInstruction_setPc {s : State} (hrun : s.run = .running) (hcount : s.icount.toNat < 128)
    {loc : Nat} (hloc : loc ≤ 4096) :
    checkEnd (s.countInstruction.setPc (BitVec.ofNat 13 loc)) = { s with
      pc := BitVec.ofNat 13 loc
      icount := BitVec.ofNat 8 (s.icount.toNat + 1)
      run := runAfter s.memLen loc (s.icount.toNat + 1) } := by
  have hpc : (BitVec.ofNat 13 loc).toNat = loc := by
    rw [BitVec.toNat_ofNat]; omega
  have hnum : (BitVec.ofNat 8 (s.icount.toNat + 1)).toNat = s.icount.toNat + 1 :=
    by
    rw [BitVec.toNat_ofNat]; omega
  rw [checkEnd_eq_setRun_runAfter (by simpa using hrun)]
  simp [State.setRun, State.setPc, State.countInstruction, add_one_eq_ofNat_toNat_succ, hpc, hnum]

/-- Settles O18: Seq and Jump are the checks at the number `pc + 1` or `loc`, of which neither wraps; Stop has none. -/
theorem endOfCycleOnNumbers : Obligations.EndOfCycleOnNumbers := by
  rintro s ⟨hs, hrun, hcell⟩
  obtain ⟨-, hcount⟩ := hs.running hrun
  have hlen := hs.lenBound
  refine ⟨?seq, fun loc hloc => checkEnd_countInstruction_setPc hrun hcount hloc, ?stop⟩
  case seq =>
    rw [endCycle, add_one_eq_ofNat_toNat_succ]
    exact checkEnd_countInstruction_setPc hrun hcount (by omega)
  case stop =>
    rw [← add_one_eq_ofNat_toNat_succ]
    rfl

/-! ### The last instruction -/

/-- Every execution at an instruction keeps the invariant, whichever instruction it is. -/
theorem ExecResult.inv {i : Instr} {s u : State} (hs : s.atInstruction) (h : ExecResult i s u) : u.Inv := by
  obtain ⟨hinv, hrun, hcell⟩ := hs
  obtain ⟨-, hcount⟩ := hinv.running hrun
  have hlen := hinv.lenBound
  cases h with
  | fault r _ => exact hinv.raise hrun r
  | badToken m later _ _ => exact hinv.raise_setInput hrun later _
  | completed h =>
    exact endCycle_inv (h.loaded hinv.loaded) (h.run.trans hrun) (h.cause.trans (hinv.cause_eq_none hrun))
      (by rw [h.pc]; omega) (by rwa [h.icount]) h.jump

/-- A fault keeps the count, and a completed instruction adds 1 to it (10_state.md R22, decision D6). -/
theorem ExecResult.icount_cases {i : Instr} {s u : State} (hcount : s.icount.toNat < 128) (h : ExecResult i s u) :
    (u.run = .haltedError ∧ u.icount = s.icount) ∨ u.icount.toNat = s.icount.toNat + 1 := by
  cases h with
  | fault r _ => exact .inl ⟨rfl, rfl⟩
  | badToken m later _ _ => exact .inl ⟨rfl, rfl⟩
  | completed h => exact .inr (by rw [endCycle_icount_toNat _ (by rwa [h.icount]), h.icount])

/-- Settles O20: a fault has ended the run at count 127, and at count 128 the invariant leaves neither RUNNING nor an
error; in a timeout it puts `pc` at a cell. -/
theorem lastInstructionEndsTheRun : Obligations.LastInstructionEndsTheRun := by
  intro i s u hs hcount hexec
  have hres := ExecResult.of_exec hexec
  have hu := hres.inv hs
  have hstop : ∀ m, i = .stp m → u.run = .haltedStop := by
    rintro m rfl
    cases hexec
    rfl
  have htimeout : u.run = .haltedTimeout → u.pc.toNat < u.memLen := fun h => (hu.atTimeout h).1
  rcases hres.icount_cases (by omega) with ⟨herror, hkept⟩ | hadded
  · exact ⟨by simp [herror], hstop, htimeout, fun _ => by rw [hkept, hcount]⟩
  · refine ⟨fun h => ?_, hstop, htimeout, fun h => ?_⟩
    · have := (hu.running h).2
      omega
    · have := (hu.atError h).2
      omega

/-! ### The input -/

section
variable (items : List InItem) (s : State)

theorem endCycle_setInput (n : Sequencing) : endCycle n (s.setInput items) = (endCycle n s).setInput items :=
  endCycle_with_input n s items

theorem resolve_setInput (m : Mode) (a : Target) : resolve m a (s.setInput items) = resolve m a s := rfl

theorem withLocation_setInput {m : Mode} {a : Target} {k k' : Nat → State}
    (h : ∀ loc, k' loc = (k loc).setInput items) :
    withLocation m a (s.setInput items) k' = (withLocation m a s k).setInput items := by
  rw [withLocation, withLocation, resolve_setInput]
  cases resolve m a s with
  | error r => rfl
  | ok loc => exact h loc

theorem withOperand_setAcc_setInput (m : Mode) (a : Target) (f : Word → Word) :
    (withOperand m a (s.setInput items) fun v => endCycle .seq ((s.setInput items).setAcc (f v))) =
      (withOperand m a s fun v => endCycle .seq (s.setAcc (f v))).setInput items := by
  refine withLocation_setInput items s fun loc => ?_
  rcases Nat.lt_or_ge loc s.memLen with hlt | hge
  · rw [withCell_ok hlt, withCell_ok (s := s.setInput items) hlt]
    exact endCycle_setInput items (s.setAcc _) .seq
  · rw [withCell_error hge, withCell_error (s := s.setInput items) hge]
    rfl

theorem storeAndClear_setInput (loc : Nat) :
    storeAndClear (s.setInput items) loc = (storeAndClear s loc).setInput items := by
  rcases Nat.lt_or_ge loc s.memLen with hlt | hge
  · rw [storeAndClear_of_lt hlt, storeAndClear_of_lt (s := s.setInput items) hlt]
    exact endCycle_setInput items ((s.setMem (Memory.write s.mem loc s.acc)).setAcc 0#16) .seq
  · rw [storeAndClear_of_ge hge, storeAndClear_of_ge (s := s.setInput items) hge]
    rfl

theorem exec_setInput {i : Instr} {u : State} (hrd : ∀ m, i ≠ .rd m) (h : exec i s = .next u) :
    exec i (s.setInput items) = .next (u.setInput items) := by
  cases i <;> cases h <;> apply congrArg Host.Outcome.next
  case ban m a => exact withLocation_setInput items s fun _ => endCycle_setInput items s _
  case sub m a => exact withOperand_setAcc_setInput items s m a (aluSub s.acc)
  case stc m a => exact withLocation_setInput items s (storeAndClear_setInput items s)
  case and m a => exact withOperand_setAcc_setInput items s m a (aluAnd s.acc)
  case add m a => exact withOperand_setAcc_setInput items s m a (aluAdd s.acc)
  case ld m a => exact withOperand_setAcc_setInput items s m a id
  case br m a => exact withLocation_setInput items s fun _ => endCycle_setInput items s _
  case rd m => exact absurd rfl (hrd m)
  case stp m => exact endCycle_setInput items s .stop
  case wrt m => exact withLocation_setInput items s fun _ => endCycle_setInput items (outEmit s.acc s) .seq

end

/-- Settles O43: replacing the input commutes with every operation but the taking of an item, which is RD's alone. -/
theorem onlyRdDependsOnInput : Obligations.OnlyRdDependsOnInput :=
  fun _ s _ items hrd h => exec_setInput items s hrd h

end Sys2Proof.Machine
end

section
/-! Arithmetic, load and store (41_arithmetic_load_store.md): the ALU on numbers and on signed readings, the operand that
SUB, AND, ADD and LD share, the store of STC, and when the five of them fault. -/

namespace Sys2Proof.Machine

open Sys2Proof.Laws.EncodesLegalWord (assemble_toNat)

/-! ### The ALU -/

theorem aluAdd_toNat (a b : Word) : (aluAdd a b).toNat = (a.toNat + b.toNat) % 65536 :=
  BitVec.toNat_add a b

theorem aluSub_toNat (a b : Word) : ((aluSub a b).toNat : Int) = ((a.toNat : Int) - b.toNat) % 65536 := by
  have hb := b.isLt
  rw [aluSub, BitVec.toNat_sub]
  omega

theorem aluAnd_getLsbD (a b : Word) (i : Nat) : (aluAnd a b).getLsbD i = (a.getLsbD i && b.getLsbD i) :=
  BitVec.getLsbD_and

/-- The formula of R76, word for word. -/
theorem aluAdd_eq_ofNat (a b : Word) : aluAdd a b = BitVec.ofNat 16 ((a.toNat + b.toNat) % 65536) := by
  rw [← aluAdd_toNat, BitVec.ofNat_toNat, BitVec.setWidth_eq]

/-- The formula of R73, word for word: the 65536 it adds is lost in the remainder. -/
theorem aluSub_eq_ofInt (a b : Word) :
    aluSub a b = BitVec.ofInt 16 (((a.toNat : Int) - b.toNat + 65536) % 65536) := by
  apply BitVec.eq_of_toNat_eq
  have hsub := aluSub_toNat a b
  rw [BitVec.toNat_ofInt]
  omega

/-- Subtracting is adding the two's complement (R78). -/
theorem aluSub_eq_aluAdd (a b : Word) : aluSub a b = aluAdd a (BitVec.ofNat 16 ((65536 - b.toNat) % 65536)) := by
  apply BitVec.eq_of_toNat_eq
  have hsub := aluSub_toNat a b
  have hb := b.isLt
  rw [aluAdd_toNat, BitVec.toNat_ofNat]
  omega

/-! ### The ALU read signed

The signed reading of a word is the number of the signed range that is congruent to the word modulo 65536. -/

theorem toSigned16_bounds (u : Word) : -32768 ≤ toSigned16 u ∧ toSigned16 u ≤ 32767 := by
  have hu := u.isLt
  rcases Nat.lt_or_ge u.toNat 32768 with h | h
  · rw [toSigned16_of_lt h]; omega
  · rw [toSigned16_of_ge h]; omega

theorem toSigned16_emod (u : Word) : toSigned16 u % 65536 = u.toNat := by
  have hu := u.isLt
  rcases Nat.lt_or_ge u.toNat 32768 with h | h
  · rw [toSigned16_of_lt h]; omega
  · rw [toSigned16_of_ge h]; omega

theorem toSigned16_aluAdd_emod (a b : Word) :
    toSigned16 (aluAdd a b) % 65536 = (toSigned16 a + toSigned16 b) % 65536 := by
  rw [Int.add_emod, toSigned16_emod, toSigned16_emod, toSigned16_emod, aluAdd_toNat]
  rfl

theorem toSigned16_aluSub_emod (a b : Word) :
    toSigned16 (aluSub a b) % 65536 = (toSigned16 a - toSigned16 b) % 65536 := by
  rw [Int.sub_emod, toSigned16_emod, toSigned16_emod, toSigned16_emod, aluSub_toNat]

theorem toSigned16_eq_of_emod_eq {u : Word} {z : Int} (hmod : toSigned16 u % 65536 = z % 65536)
    (hrange : -32768 ≤ z ∧ z ≤ 32767) : toSigned16 u = z := by
  have hu := toSigned16_bounds u
  omega

/-- A result out of the signed range, but not by more than the range's own size, is read one modulus away. -/
theorem natAbs_toSigned16_sub_of_emod_eq {u : Word} {z : Int} (hmod : toSigned16 u % 65536 = z % 65536)
    (hnear : -98304 ≤ z ∧ z < 98304) (hout : ¬(-32768 ≤ z ∧ z ≤ 32767)) : (toSigned16 u - z).natAbs = 65536 := by
  have hu := toSigned16_bounds u
  omega

/-- Settles O54: the formulas on numbers, and for the signed reading the congruence of each result with the sum or the
difference of the two readings. -/
theorem aluLaws : Obligations.AluLaws := by
  refine ⟨fun a b => ?_, by decide⟩
  have ha := toSigned16_bounds a
  have hb := toSigned16_bounds b
  have hadd := toSigned16_aluAdd_emod a b
  have hsub := toSigned16_aluSub_emod a b
  exact ⟨aluAdd_toNat a b, aluSub_toNat a b, aluAnd_getLsbD a b,
    toSigned16_eq_of_emod_eq hadd, natAbs_toSigned16_sub_of_emod_eq hadd (by omega),
    toSigned16_eq_of_emod_eq hsub, natAbs_toSigned16_sub_of_emod_eq hsub (by omega), aluSub_eq_aluAdd a b⟩

/-! ### The operand of SUB, AND, ADD and LD -/

section
variable {m : Mode} {t : Target} {s : State} {k : Word → State}

theorem withOperand_ok {loc : Nat} {v : Word} (hloc : resolve m t s = .ok loc)
    (hread : memRead .operand loc s = .ok v) : withOperand m t s k = k v := by
  obtain ⟨hlt, rfl⟩ := memRead_ok.mp hread
  exact (withLocation_ok hloc).trans (withCell_ok hlt)

theorem withOperand_resolve_error {r : Raise} (h : resolve m t s = .error r) :
    withOperand m t s k = s.faulted r.cause :=
  withLocation_error h

theorem withOperand_read_error {loc : Nat} {r : Raise} (hloc : resolve m t s = .ok loc)
    (hread : memRead .operand loc s = .error r) : withOperand m t s k = s.faulted r.cause := by
  obtain ⟨hge, rfl⟩ := memRead_error.mp hread
  exact (withLocation_ok hloc).trans (withCell_error hge)

end

/-- An instruction that is its operand and something done with it takes the fault of the resolver and that of the read,
whatever it would have done (R72). -/
theorem exec_withOperand_faults {i : Instr} {m : Mode} {t : Target} {s : State} {k : Word → State}
    (h : exec i s = .next (withOperand m t s k)) :
    (∀ r, resolve m t s = .error r → exec i s = .next (s.faulted r.cause)) ∧
    (∀ loc r, resolve m t s = .ok loc → memRead .operand loc s = .error r →
      exec i s = .next (s.faulted r.cause)) :=
  ⟨fun _ hres => h.trans (congrArg _ (withOperand_resolve_error hres)),
    fun _ _ hloc hread => h.trans (congrArg _ (withOperand_read_error hloc hread))⟩

/-- Where the operand is read instead, an instruction that gives the accumulator a value made of it completes with that
value. -/
theorem exec_withOperand_setAcc {i : Instr} {m : Mode} {t : Target} {s : State} (f : Word → Word)
    (h : exec i s = .next (withOperand m t s fun v => endCycle .seq (s.setAcc (f v)))) {loc : Nat} {v : Word}
    (hloc : resolve m t s = .ok loc) (hread : memRead .operand loc s = .ok v) :
    exec i s = .next (endCycle .seq { s with acc := f v }) :=
  h.trans (congrArg _ (withOperand_ok hloc hread))

/-- Settles O21: the operand is read and the ALU's difference is the formula. -/
theorem subSubtractsModulo65536 : Obligations.SubSubtractsModulo65536 := by
  refine fun m t s => ⟨assemble_toNat 1#3 m t, fun loc v hloc hread => ?_, exec_withOperand_faults rfl⟩
  rw [← aluSub_eq_ofInt]
  exact exec_withOperand_setAcc (aluSub s.acc) rfl hloc hread

/-- Settles O23: the operand is read and the ALU's conjunction is the result. -/
theorem andIsBitwise : Obligations.AndIsBitwise := by
  refine fun m t s => ⟨assemble_toNat 3#3 m t, fun loc v hloc hread => ?_, exec_withOperand_faults rfl⟩
  exact ⟨aluAnd s.acc v, exec_withOperand_setAcc (aluAnd s.acc) rfl hloc hread, aluAnd_getLsbD s.acc v⟩

/-- Settles O24: the operand is read and the ALU's sum is the formula. -/
theorem addAddsModulo65536 : Obligations.AddAddsModulo65536 := by
  refine fun m t s => ⟨assemble_toNat 4#3 m t, fun loc v hloc hread => ?_, exec_withOperand_faults rfl⟩
  rw [← aluAdd_eq_ofNat]
  exact exec_withOperand_setAcc (aluAdd s.acc) rfl hloc hread

/-- Settles O25: the operand is read and is itself the result. -/
theorem ldLoadsTheOperand : Obligations.LdLoadsTheOperand :=
  fun m t _ => ⟨assemble_toNat 5#3 m t, fun _ _ => exec_withOperand_setAcc id rfl, exec_withOperand_faults rfl⟩

/-! ### STC and the faults of the five -/

/-- Settles O22: at a cell the memory written reads as the accumulator there and as before elsewhere; where there is no
cell the fault comes before the store and the clear. -/
theorem stcStoresAndClears : Obligations.StcStoresAndClears := by
  refine fun m t s hs => ⟨assemble_toNat 2#3 m t, fun loc hloc hlt => ?cell, fun r hres => ?unresolved,
    fun loc hloc hge => ?noCell⟩
  case cell =>
    refine ⟨Memory.write s.mem loc s.acc, ?_, Memory.read_write_same loc s.acc hs.memCanonical,
      fun a hne => Memory.read_write_other hne s.acc s.mem⟩
    rw [exec_stc_of_resolve hloc, storeAndClear_of_lt hlt]
    rfl
  case unresolved => exact congrArg Host.Outcome.next (withLocation_error hres)
  case noCell =>
    rw [exec_stc_of_resolve hloc, storeAndClear_of_ge hge]
    rfl

/-- What the five memory-operand instructions do at the location they resolved: where there is no cell the fault, and at
a cell a completed cycle that has written at most the accumulator and memory (R72, decision D2). -/
structure AccessesCell (s : State) (k : Nat → State) : Prop where
  fault : ∀ {loc}, s.memLen ≤ loc → k loc = s.faulted .addressOutOfBounds
  completed : ∀ {loc}, loc < s.memLen → ∃ acc' mem', k loc = endCycle .seq { s with acc := acc', mem := mem' }

theorem AccessesCell.withCell_setAcc (s : State) (f : Word → Word) :
    AccessesCell s fun loc => withCell loc s fun v => endCycle .seq (s.setAcc (f v)) where
  fault hge := withCell_error hge
  completed {loc} hlt := ⟨f (Memory.read s.mem loc), s.mem, withCell_ok hlt⟩

theorem AccessesCell.storeAndClear (s : State) : AccessesCell s (storeAndClear s) where
  fault hge := storeAndClear_of_ge hge
  completed {loc} hlt := ⟨0#16, Memory.write s.mem loc s.acc, storeAndClear_of_lt hlt⟩

theorem exec_memoryOperand_eq_withLocation {i : Instr} {m : Mode} {t : Target}
    (hi : i ∈ [Instr.sub m t, .stc m t, .and m t, .add m t, .ld m t]) (s : State) :
    ∃ k, exec i s = .next (withLocation m t s k) ∧ AccessesCell s k := by
  simp only [List.mem_cons, List.not_mem_nil, or_false] at hi
  rcases hi with rfl | rfl | rfl | rfl | rfl
  · exact ⟨_, rfl, .withCell_setAcc s (aluSub s.acc)⟩
  · exact ⟨_, rfl, .storeAndClear s⟩
  · exact ⟨_, rfl, .withCell_setAcc s (aluAnd s.acc)⟩
  · exact ⟨_, rfl, .withCell_setAcc s (aluAdd s.acc)⟩
  · exact ⟨_, rfl, .withCell_setAcc s id⟩

/-- A missing pointer cell, a pointer above 4096 and a pointer to no cell are all the same fault, whichever of the three
checks meets it (R72, decisions D2, D3). -/
theorem AccessesCell.indirect_fault {s : State} {k : Nat → State} (h : AccessesCell s k) {t : Target}
    (hbad : s.memLen ≤ t.toNat ∨ 4096 < (Memory.read s.mem t.toNat).toNat ∨
      s.memLen ≤ (Memory.read s.mem t.toNat).toNat) :
    withLocation .indirect t s k = s.faulted .addressOutOfBounds := by
  rcases Nat.lt_or_ge t.toNat s.memLen with hcell | hmissing
  · have hres := resolve_indirect_of_lt hcell
    split_ifs at hres with hle
    · rw [withLocation_ok hres]
      exact h.fault (by omega)
    · exact withLocation_error hres
  · exact withLocation_error (resolve_indirect_of_ge hmissing)

/-- Settles O26: each mode's location is known from the memory, and what is done at a location is `AccessesCell`. -/
theorem memoryOperandFaults : Obligations.MemoryOperandFaults := by
  rintro m t s i p hi rfl
  obtain ⟨k, hexec, hk⟩ := exec_memoryOperand_eq_withLocation hi s
  simp only [hexec, Host.Outcome.next.injEq]
  cases m with
  | direct =>
    rw [withLocation_ok (resolve_direct t s)]
    refine ⟨nofun, nofun, nofun, fun _ hge => hk.fault hge, ?_⟩
    rintro (⟨-, hlt⟩ | ⟨hmode, -⟩)
    · exact hk.completed hlt
    · cases hmode
  | indirect =>
    refine ⟨fun _ h => hk.indirect_fault (.inl h), fun _ h => hk.indirect_fault (.inr (.inl h)),
      fun _ h => hk.indirect_fault (.inr (.inr h)), nofun, ?_⟩
    rintro (⟨hmode, -⟩ | ⟨-, hcell, hle, hlt⟩)
    · cases hmode
    · rw [withLocation_ok ((resolve_indirect_of_lt hcell).trans (if_pos hle))]
      exact hk.completed hlt

end Sys2Proof.Machine
end

section
/-! The two control transfers (42_branch.md): what BAN and BR do at the location they resolved, what each value of a
location leaves, and that every other completed instruction but STP goes on to the next address. -/

namespace Sys2Proof.Machine

open Sys2Proof.Laws.EncodesLegalWord (assemble_toNat)

/-! ### An instruction that resolves a location -/

section
variable {i : Instr} {m : Mode} {t : Target} {s : State} {k : Nat → State}

theorem le_of_resolve_ok {loc : Nat} (h : resolve m t s = .ok loc) : loc ≤ 4096 := by
  rcases resolve_cases m t s with ⟨loc', hok, hle⟩ | ⟨stage, addr, herr⟩
  · cases hok.symm.trans h
    exact hle
  · cases herr.symm.trans h

theorem exec_withLocation_ok (h : exec i s = .next (withLocation m t s k)) {loc : Nat}
    (hloc : resolve m t s = .ok loc) : exec i s = .next (k loc) :=
  h.trans (congrArg _ (withLocation_ok hloc))

theorem exec_withLocation_error (h : exec i s = .next (withLocation m t s k)) {r : Raise}
    (hr : resolve m t s = .error r) : exec i s = .next (s.faulted r.cause) :=
  h.trans (congrArg _ (withLocation_error hr))

end

/-! ### BAN and BR -/

theorem exec_br (m : Mode) (t : Target) (s : State) :
    exec (.br m t) s = .next (withLocation m t s fun loc => endCycle (.jump loc) s) :=
  rfl

theorem exec_ban (m : Mode) (t : Target) (s : State) :
    exec (.ban m t) s = .next (withLocation m t s fun loc =>
      endCycle (if 32768 ≤ s.acc.toNat then .jump loc else .seq) s) := by
  simp only [exec, execBan, accNegative, decide_eq_true_eq]

/-- A BAN with a negative accumulator does what BR does. -/
theorem exec_ban_of_ge {m : Mode} {t : Target} {s : State} (h : 32768 ≤ s.acc.toNat) :
    exec (.ban m t) s = .next (withLocation m t s fun loc => endCycle (.jump loc) s) := by
  simp only [exec_ban, if_pos h]

theorem exec_ban_of_lt {m : Mode} {t : Target} {s : State} (h : s.acc.toNat < 32768) :
    exec (.ban m t) s = .next (withLocation m t s fun _ => endCycle .seq s) := by
  simp only [exec_ban, if_neg (Nat.not_le.mpr h)]

/-- Settles O27: the sign of the accumulator chooses the outcome at the location alone, so the resolver's fault comes
first on both sides. -/
theorem banBranchesWhenNegative : Obligations.BanBranchesWhenNegative := by
  refine fun m t s => ⟨?word, fun loc hloc => ⟨fun hneg => ?taken, fun hpos => ?notTaken⟩, fun r hr => ?fault⟩
  case word => exact (assemble_toNat 0#3 m t).trans (by simp)
  case taken => exact exec_withLocation_ok (exec_ban_of_ge hneg) hloc
  case notTaken => exact exec_withLocation_ok (exec_ban_of_lt hpos) hloc
  case fault => exact exec_withLocation_error (exec_ban m t s) hr

/-- Settles O28: the location that the resolver answers is the outcome's, and its fault is taken. -/
theorem brAlwaysBranches : Obligations.BrAlwaysBranches :=
  fun m t s => ⟨assemble_toNat 6#3 m t, fun _ => exec_withLocation_ok (exec_br m t s),
    fun _ => exec_withLocation_error (exec_br m t s)⟩

/-- Settles O29: BR and a taken BAN are the same jump; a resolved location is in range, so the end of the cycle is on
plain numbers, and a pointer above 4096 is not resolved. -/
theorem branchTargetRange : Obligations.BranchTargetRange := by
  intro m t s i hs hi
  have hjump : exec i s = .next (withLocation m t s fun loc => endCycle (.jump loc) s) := by
    rcases hi with rfl | ⟨rfl, hneg⟩
    · exact exec_br m t s
    · exact exec_ban_of_ge hneg
  refine ⟨fun loc hloc => ?resolved, ?pointerAbove⟩
  case resolved =>
    have hle := le_of_resolve_ok hloc
    obtain ⟨-, hend, -⟩ := endOfCycleOnNumbers s hs
    exact ⟨hle, (exec_withLocation_ok hjump hloc).trans (congrArg _ (hend loc hle))⟩
  case pointerAbove =>
    rintro rfl hcell habove
    exact exec_withLocation_error hjump ((resolve_indirect_of_lt hcell).trans (if_neg (Nat.not_le.mpr habove)))

/-! ### The instructions that go on -/

/-- `u` is what a cycle begun at `s` can leave when it transfers no control: a fault, or a completed cycle that has gone
on to the next address (10_state.md R17). -/
def GoesOn (s u : State) : Prop := u.run = .haltedError ∨ u.pc = s.pc + 1#13

section
variable {s t : State}

theorem GoesOn.raise (r : Raise) : GoesOn s (t.raise r) := .inl rfl

theorem GoesOn.endCycle_seq (h : t.pc = s.pc) : GoesOn s (endCycle .seq t) :=
  .inr ((endCycle_seq_pc t).trans (by rw [h]))

theorem GoesOn.withLocation {m : Mode} {a : Target} {k : Nat → State} (h : ∀ loc, GoesOn s (k loc)) :
    GoesOn s (withLocation m a s k) := by
  rcases withLocation_cases m a s k with ⟨stage, addr, -, hk⟩ | ⟨loc, -, -, hk⟩
  · exact hk ▸ .raise _
  · exact hk ▸ h loc

theorem GoesOn.withOperand_setAcc {m : Mode} {a : Target} (f : Word → Word) :
    GoesOn s (withOperand m a s fun v => endCycle .seq (s.setAcc (f v))) := by
  rcases withOperand_cases m a s fun v => endCycle .seq (s.setAcc (f v)) with ⟨stage, addr, hk⟩ | ⟨loc, -, -, hk⟩
  · exact hk ▸ .raise _
  · exact hk ▸ .endCycle_seq rfl

theorem GoesOn.storeAndClear (loc : Nat) : GoesOn s (storeAndClear s loc) := by
  rcases storeAndClear_cases s loc with ⟨-, h⟩ | ⟨-, h⟩
  · exact h ▸ .raise _
  · exact h ▸ .endCycle_seq rfl

theorem GoesOn.readItem : GoesOn s (readItem s) := by
  rcases readItem_cases s with ⟨-, h⟩ | ⟨later, -, h⟩ | ⟨v, later, -, h⟩
  · exact h ▸ .raise _
  · exact h ▸ .raise _
  · exact h ▸ .endCycle_seq rfl

/-- At the address of a cell the next address does not wrap. -/
theorem GoesOn.pc_toNat (h : GoesOn s t) (hs : s.atInstruction) (hrun : t.run ≠ .haltedError) :
    t.pc.toNat = s.pc.toNat + 1 := by
  obtain ⟨hinv, -, hcell⟩ := hs
  have hlen := hinv.lenBound
  rw [h.resolve_left hrun, BitVec.toNat_add_of_lt (by simp; omega)]
  rfl

end

/-- Every instruction goes on, or is one of the three that transfer control: BR, a BAN that is taken, STP. -/
theorem goesOn_or_transfer {i : Instr} {s u : State} (h : exec i s = .next u) :
    GoesOn s u ∨
      (∃ m t, i = .br m t) ∨ (∃ m t, i = .ban m t ∧ 32768 ≤ s.acc.toNat) ∨ (∃ m, i = .stp m) := by
  cases i with
  | br m t => exact .inr (.inl ⟨m, t, rfl⟩)
  | stp m => exact .inr (.inr (.inr ⟨m, rfl⟩))
  | ban m t =>
    rcases Nat.lt_or_ge s.acc.toNat 32768 with hpos | hneg
    · cases (exec_ban_of_lt hpos).symm.trans h
      exact .inl (.withLocation fun _ => .endCycle_seq rfl)
    · exact .inr (.inr (.inl ⟨m, t, rfl, hneg⟩))
  | sub m t => cases h; exact .inl (.withOperand_setAcc (aluSub s.acc))
  | stc m t => cases h; exact .inl (.withLocation .storeAndClear)
  | and m t => cases h; exact .inl (.withOperand_setAcc (aluAnd s.acc))
  | add m t => cases h; exact .inl (.withOperand_setAcc (aluAdd s.acc))
  | ld m t => cases h; exact .inl (.withOperand_setAcc id)
  | rd m => cases h; exact .inl (.withLocation fun _ => .readItem)
  | wrt m => cases h; exact .inl (.withLocation fun _ => .endCycle_seq rfl)

/-- Settles O40: an instruction that goes on and is no fault leaves `pc + 1`. -/
theorem onlyTransfersMoveThePc : Obligations.OnlyTransfersMoveThePc :=
  fun _ _ _ hs hexec hrun hmoved =>
    (goesOn_or_transfer hexec).resolve_left fun hgoes => hmoved (hgoes.pc_toNat hs hrun)

end Sys2Proof.Machine
end

section
/-! Input, output and the extended opcode (43_extended_io.md): the word that is no instruction, what RD, STP and WRT do
and leave of the two streams, and the text of an output line. -/

namespace Sys2Proof.Machine

open Sys2Proof.Laws.EncodesLegalWord (assemble_toNat)

/-! ### The word that is no instruction -/

theorem fetchInstr_of_decode_eq_error {s : State} {w : Word} (hcell : s.pc.toNat < s.memLen)
    (hdecode : decode (Memory.read s.mem s.pc.toNat) = .error (.illegalExtended w)) :
    fetchInstr s = .error (.illegalOpcode w) := by
  simp [fetchInstr, (memRead_ok (st := .fetch)).mpr ⟨hcell, rfl⟩, hdecode]

/-- Settles O10: the decoder refuses the word, so the fetch answers the fault. -/
theorem illegalWordTakesIllegalOpcode : Obligations.IllegalWordTakesIllegalOpcode := by
  intro s hrun hcell hop h1 h2 h3
  have hdecode := (illegalWordsAreRefused _).1.mpr ⟨hop, h1, h2, h3⟩
  exact step_eq_raise hrun (fetchInstr_of_decode_eq_error hcell hdecode)

/-! ### RD, STP and WRT -/

/-- The word of an extended instruction with selector `t` is `0xE000 + t` and its mode flag (30_encoding.md R52). -/
theorem assemble_seven_toNat (m : Mode) (t : Target) :
    (assemble 7#3 m t).toNat = 0xE000 + t.toNat + m.bit.toNat * 4096 := by
  rw [assemble_toNat, BitVec.toNat_ofNat]
  omega

theorem readItem_of_nil {s : State} (h : s.input = []) : readItem s = s.raise .inputExhausted := by
  simp [readItem, inTake_none.mpr h]

theorem readItem_of_invalid {s : State} {later : List InItem} (h : s.input = .invalid :: later) :
    readItem s = (s.setInput later).raise .invalidInputToken := by
  simp [readItem, inTake, h]

theorem readItem_of_value {s : State} {v : Word} {later : List InItem} (h : s.input = .value v :: later) :
    readItem s = endCycle .seq ((s.setInput later).setAcc v) := by
  simp [readItem, inTake, h]

theorem exec_rd (m : Mode) (s : State) :
    exec (.rd m) s = .next (withLocation m 1#12 s fun _ => readItem s) :=
  rfl

theorem exec_stp (m : Mode) (s : State) : exec (.stp m) s = .next (endCycle .stop s) :=
  rfl

theorem exec_wrt (m : Mode) (s : State) :
    exec (.wrt m) s = .next (withLocation m 3#12 s fun _ => endCycle .seq (outEmit s.acc s)) :=
  rfl

/-- Settles O30: the resolver's fault comes before the item, and the head of the input says which item is taken. -/
theorem rdReadsOneItem : Obligations.RdReadsOneItem := by
  refine fun m s => ⟨assemble_seven_toNat m 1#12, fun _ => exec_withLocation_error (exec_rd m s), fun loc hloc => ?_⟩
  rw [exec_withLocation_ok (exec_rd m s) hloc]
  exact ⟨fun h => congrArg _ (readItem_of_nil h), fun _ h => congrArg _ (readItem_of_invalid h),
    fun _ _ h => congrArg _ (readItem_of_value h)⟩

/-- Settles O31: STP is the end of the cycle alone, with the outcome Stop. -/
theorem stpStopsTheRun : Obligations.StpStopsTheRun :=
  fun m s => ⟨assemble_seven_toNat m 2#12, exec_stp m s⟩

/-- Settles O32: the word is emitted at the location alone, after the resolver's fault. -/
theorem wrtAppendsTheAccumulator : Obligations.WrtAppendsTheAccumulator :=
  fun m s => ⟨assemble_seven_toNat m 3#12, fun _ => exec_withLocation_ok (exec_wrt m s),
    fun _ => exec_withLocation_error (exec_wrt m s)⟩

/-! ### The two streams -/

/-- What `i`, begun at `s` and completed with `u`, has done to the two streams (43_extended_io.md R91). -/
def StreamsAfter (i : Instr) (s u : State) : Prop :=
  match i with
  | .rd _ => s.input = .value u.acc :: u.input ∧ u.out = s.out
  | .wrt _ => u.input = s.input ∧ u.out = s.out ++ [s.acc]
  | _ => u.input = s.input ∧ u.out = s.out

/-- `u` is a fault, or `P` holds of it. -/
def FaultOr (P : State → Prop) (u : State) : Prop := u.run = .haltedError ∨ P u

section
variable {P : State → Prop} {s : State} {m : Mode} {a : Target}

theorem FaultOr.raise (r : Raise) : FaultOr P (s.raise r) := .inl rfl

theorem FaultOr.withLocation {k : Nat → State} (h : ∀ loc, FaultOr P (k loc)) :
    FaultOr P (withLocation m a s k) := by
  rcases withLocation_cases m a s k with ⟨stage, addr, -, hk⟩ | ⟨loc, -, -, hk⟩
  · exact hk ▸ .raise _
  · exact hk ▸ h loc

theorem FaultOr.withOperand {k : Word → State} (h : ∀ v, FaultOr P (k v)) :
    FaultOr P (withOperand m a s k) := by
  rcases withOperand_cases m a s k with ⟨stage, addr, hk⟩ | ⟨loc, -, -, hk⟩
  · exact hk ▸ .raise _
  · exact hk ▸ h _

end

/-- The streams are as they were, or the instruction faulted. -/
def StreamsKept (s : State) : State → Prop := FaultOr fun u => u.input = s.input ∧ u.out = s.out

section
variable {s : State}

theorem StreamsKept.endCycle {t : State} (n : Sequencing) (hinput : t.input = s.input) (hout : t.out = s.out) :
    StreamsKept s (endCycle n t) :=
  .inr ⟨(endCycle_input t n).trans hinput, (endCycle_out t n).trans hout⟩

theorem StreamsKept.withOperand_setAcc {m : Mode} {a : Target} (f : Word → Word) :
    StreamsKept s (withOperand m a s fun v => Machine.endCycle .seq (s.setAcc (f v))) :=
  .withOperand fun _ => StreamsKept.endCycle .seq rfl rfl

theorem StreamsKept.storeAndClear (loc : Nat) : StreamsKept s (storeAndClear s loc) := by
  rcases storeAndClear_cases s loc with ⟨-, h⟩ | ⟨-, h⟩
  · exact h ▸ .raise _
  · exact h ▸ .endCycle .seq rfl rfl

end

theorem readItem_streams (m : Mode) (s : State) : FaultOr (StreamsAfter (.rd m) s) (readItem s) := by
  rcases readItem_cases s with ⟨-, h⟩ | ⟨later, -, h⟩ | ⟨v, later, hin, h⟩
  · exact h ▸ .raise _
  · exact h ▸ .raise _
  · exact h ▸ .inr (by simpa [StreamsAfter] using hin)

theorem exec_streams {i : Instr} {s u : State} (h : exec i s = .next u) : FaultOr (StreamsAfter i s) u := by
  cases i <;> cases h
  case ban m a => exact .withLocation fun _ => StreamsKept.endCycle _ rfl rfl
  case sub m a => exact StreamsKept.withOperand_setAcc (aluSub s.acc)
  case stc m a => exact .withLocation StreamsKept.storeAndClear
  case and m a => exact StreamsKept.withOperand_setAcc (aluAnd s.acc)
  case add m a => exact StreamsKept.withOperand_setAcc (aluAdd s.acc)
  case ld m a => exact StreamsKept.withOperand_setAcc id
  case br m a => exact .withLocation fun _ => StreamsKept.endCycle _ rfl rfl
  case rd m => exact .withLocation fun _ => readItem_streams m s
  case stp m => exact StreamsKept.endCycle .stop rfl rfl
  case wrt m => exact .withLocation fun _ => .inr (by simp [StreamsAfter])

/-- Settles O42: RD and WRT have each their own line of `StreamsAfter`, and every other instruction the third. -/
theorem streamsFollowInstructionOrder : Obligations.StreamsFollowInstructionOrder := by
  intro i s u _ hexec hrun
  have h := (exec_streams hexec).resolve_left hrun
  cases i <;> simpa [StreamsAfter] using h

/-! ### The digits of a word -/

/-- Reading on over the low `k` digits of a number puts the value so far above them. -/
theorem readDigits_binaryDigits (value k sofar : Nat) :
    readDigits sofar (binaryDigits value k) = some (sofar * 2 ^ k + value % 2 ^ k) := by
  induction k generalizing sofar with
  | zero => simp [binaryDigits, readDigits, Nat.mod_one]
  | succ k ih =>
    rw [binaryDigits, readDigits_digit_cons, ih, Nat.toNat_testBit, Nat.mod_pow_succ]
    congr 1
    ring

/-! ### The usual decimal numeral -/

theorem decimalOn_of_lt {n : Nat} (h : n < 10) (fuel : Nat) (after : List Char) :
    decimalOn (fuel + 1) n after = Char.ofNat (48 + n) :: after := by
  simp [decimalOn, h]

theorem decimalOn_of_ge {n : Nat} (h : 10 ≤ n) (fuel : Nat) (after : List Char) :
    decimalOn (fuel + 1) n after = decimalOn fuel (n / 10) (Char.ofNat (48 + n % 10) :: after) := by
  simp [decimalOn, h]

/-- A digit character reads as its digit, is 0 for the digit 0 alone, and is no minus. -/
theorem digitChar_spec : ∀ d < 10, ('0' ≤ Char.ofNat (48 + d) ∧ Char.ofNat (48 + d) ≤ '9') ∧
    (Char.ofNat (48 + d)).toNat - '0'.toNat = d ∧
    (Char.ofNat (48 + d) = '0' → d = 0) ∧ Char.ofNat (48 + d) ≠ '-' := by
  decide

theorem readDecimalDigits_digit_cons {d : Nat} (h : d < 10) (sofar : Nat) (rest : List Char) :
    readDecimalDigits sofar (Char.ofNat (48 + d) :: rest) = readDecimalDigits (10 * sofar + d) rest := by
  obtain ⟨hrange, hvalue, -⟩ := digitChar_spec d h
  rw [readDecimalDigits, if_pos hrange, hvalue]

/-- Reading the numeral of `n` from 0 comes to `n` where its digits end. -/
theorem readDecimalDigits_decimalOn {fuel n : Nat} (h : n < fuel) (after : List Char) :
    readDecimalDigits 0 (decimalOn fuel n after) = readDecimalDigits n after := by
  induction fuel generalizing n after with
  | zero => omega
  | succ fuel ih =>
    rcases Nat.lt_or_ge n 10 with hn | hn
    · rw [decimalOn_of_lt hn, readDecimalDigits_digit_cons hn, Nat.mul_zero, Nat.zero_add]
    · rw [decimalOn_of_ge hn, ih (by omega), readDecimalDigits_digit_cons (Nat.mod_lt n (by omega)),
        Nat.div_add_mod]

/-- The numeral begins with a digit, which is 0 for the number 0 alone. -/
theorem decimalOn_eq_digit_cons {fuel n : Nat} (h : n < fuel) (after : List Char) :
    ∃ d rest, decimalOn fuel n after = Char.ofNat (48 + d) :: rest ∧ d < 10 ∧ (d = 0 → n = 0) := by
  induction fuel generalizing n after with
  | zero => omega
  | succ fuel ih =>
    rcases Nat.lt_or_ge n 10 with hn | hn
    · exact ⟨n, after, decimalOn_of_lt hn fuel after, hn, id⟩
    · obtain ⟨d, rest, heq, hd, hzero⟩ := ih (n := n / 10) (by omega) (Char.ofNat (48 + n % 10) :: after)
      exact ⟨d, rest, (decimalOn_of_ge hn fuel after).trans heq, hd, by omega⟩

theorem decimalOn_length_le {k n : Nat} (h : n < 10 ^ (k + 1)) (fuel : Nat) (after : List Char) :
    (decimalOn fuel n after).length ≤ k + 1 + after.length := by
  induction fuel generalizing k n after with
  | zero => simp [decimalOn]
  | succ fuel ih =>
    rcases Nat.lt_or_ge n 10 with hn | hn
    · rw [decimalOn_of_lt hn, List.length_cons]
      omega
    · rw [decimalOn_of_ge hn]
      cases k with
      | zero => omega
      | succ k =>
        have hlen := ih (k := k) (n := n / 10) (by omega) (Char.ofNat (48 + n % 10) :: after)
        rw [List.length_cons] at hlen
        omega

theorem readNatural_decimalOn (n : Nat) : readNatural (decimalOn (n + 1) n []) = some n := by
  obtain ⟨d, rest, heq, hd, hzero⟩ := decimalOn_eq_digit_cons n.lt_succ_self []
  obtain ⟨-, -, hchar, -⟩ := digitChar_spec d hd
  have hread : readDecimalDigits 0 (decimalOn (n + 1) n []) = some n :=
    readDecimalDigits_decimalOn n.lt_succ_self []
  rcases Nat.eq_zero_or_pos n with rfl | hpos
  · rfl
  · rw [readNatural, if_neg, hread]
    rintro (hnil | ⟨hhead, -⟩)
    · rw [heq] at hnil
      cases hnil
    · have hd0 : d = 0 := hchar (by simpa [heq] using hhead)
      have := hzero hd0
      omega

/-- The numeral of every integer reads back as the integer (43_extended_io.md R90). -/
theorem readNumeral_decimal (z : Int) : readNumeral (decimal z) = some z := by
  have hread := readNatural_decimalOn z.natAbs
  rcases lt_or_ge z 0 with hneg | hpos
  · simp [decimal, hneg, readNumeral, hread, hneg.ne, abs_of_neg hneg]
  · obtain ⟨d, rest, heq, hd, -⟩ := decimalOn_eq_digit_cons z.natAbs.lt_succ_self []
    obtain ⟨-, -, -, hminus⟩ := digitChar_spec d hd
    rw [heq] at hread
    simp [decimal, not_lt.mpr hpos, heq, readNumeral, hminus, hread, hpos]

/-- The numeral of a word read signed has room in a field of 8: a minus and five digits at most. -/
theorem decimal_toSigned16_length_le (v : Word) : (decimal (toSigned16 v)).length ≤ 8 := by
  have hbounds := toSigned16_bounds v
  have hdigits := decimalOn_length_le (k := 4) (n := (toSigned16 v).natAbs) (by omega)
    ((toSigned16 v).natAbs + 1) []
  rw [List.length_nil] at hdigits
  unfold decimal
  split_ifs
  · rw [List.length_cons]; omega
  · omega

/-! ### The line -/

/-- Settles O57: the numeral fits the field, so the field is 8 characters, and each part reads back as the word. -/
theorem outputLineHas25Characters : Obligations.OutputLineHas25Characters := by
  intro v
  have hfield : (field8 (decimal (toSigned16 v))).length = 8 := field8_length (decimal_toSigned16_length_le v)
  have htake : (outLine v).take 8 = field8 (decimal (toSigned16 v)) := List.take_left' hfield
  have hdrop : (outLine v).drop 8 = ' ' :: binaryDigits v.toNat 16 := List.drop_left' hfield
  have hdigits : (outLine v).drop 9 = binaryDigits v.toNat 16 := by
    rw [← List.drop_drop (i := 1) (j := 8), hdrop]; rfl
  refine ⟨by simp [outLine, hfield], ⟨_, htake, readNumeral_decimal _⟩, hdrop, ?_⟩
  have hne : binaryDigits v.toNat 16 ≠ [] := List.ne_nil_of_length_pos (by simp)
  rw [hdigits, toInteger_of_ne_nil hne, readDigits_binaryDigits, Nat.zero_mul, Nat.zero_add,
    Nat.mod_eq_of_lt v.isLt]

end Sys2Proof.Machine
end

section
/-! Faults and endings (60_exceptions.md): what a fault leaves as it was, and the `run` and `cause` that show each
ending. -/

namespace Sys2Proof.Machine

/-! ### What a fault leaves -/

theorem Raise.cause_eq_invalidInputToken {r : Raise} : r.cause = .invalidInputToken ↔ r = .invalidInputToken := by
  cases r <;> simp [Raise.cause]

/-- A fetch takes no token, so it finds no bad one (60_exceptions.md R97). -/
theorem fetchInstr_error_ne_invalidInputToken {s : State} {r : Raise} (h : fetchInstr s = .error r) :
    r ≠ .invalidInputToken := by
  rcases fetchInstr_error h with ⟨-, rfl⟩ | ⟨-, w, -, rfl⟩
  · nofun
  · nofun

/-- A fault other than a bad token's writes `run` and `cause` alone (60_exceptions.md R100, R103). -/
theorem State.raise_precise {s : State} {r : Raise} (h : r ≠ .invalidInputToken) :
    s.raise r = s.faulted (s.raise r).cause ∧ (s.raise r).cause ≠ .none ∧ (s.raise r).cause ≠ .invalidInputToken :=
  ⟨rfl, r.cause_ne_none, mt Raise.cause_eq_invalidInputToken.mp h⟩

/-- Settles O45: the fetch's fault and an instruction's are precise, RD's bad token is the exception, and a completed
cycle is no fault. -/
theorem faultsArePrecise : Obligations.FaultsArePrecise := by
  intro s u hrun hstep herror
  rcases step_next_cases hstep with ⟨hhalt, -⟩ | ⟨-, r, hfetch, rfl⟩ | ⟨-, i, hfetch, hres⟩
  · exact absurd hrun hhalt
  · exact .inl (State.raise_precise (fetchInstr_error_ne_invalidInputToken hfetch))
  · cases hres with
    | fault r hr => exact .inl (State.raise_precise hr)
    | badToken m later hi hinput => exact .inr ⟨m, later, hi ▸ hfetch, hinput, rfl⟩
    | completed h => exact absurd herror (endCycle_run_ne_haltedError _ (h.run.trans hrun))

/-! ### The seven endings -/

/-- The `run` of an ending's row (60_exceptions.md R93). -/
def Ending.run : Ending → RunState
  | .normalStop => .haltedStop
  | .pcOverflow => .haltedPcOverflow
  | .timeout => .haltedTimeout
  | .addressOutOfBounds | .illegalOpcode | .inputExhausted | .invalidInputToken => .haltedError

/-- The `cause` of an ending's row (60_exceptions.md R93). -/
def Ending.cause : Ending → Cause
  | .normalStop | .pcOverflow | .timeout => .none
  | .addressOutOfBounds => .addressOutOfBounds
  | .illegalOpcode => .illegalOpcode
  | .inputExhausted => .inputExhausted
  | .invalidInputToken => .invalidInputToken

/-- A state shows an ending exactly by the two values of the ending's row, with the invariant or without. -/
theorem State.ending_eq_some {s : State} {e : Ending} :
    s.ending = some e ↔ s.run = e.run ∧ s.cause = e.cause := by
  constructor
  · unfold State.ending
    split <;> rintro ⟨⟩ <;> exact ⟨‹_›, ‹_›⟩
  · rintro ⟨hrun, hcause⟩
    rw [State.ending, hrun, hcause]
    cases e <;> rfl

theorem State.Inv.cause_eq_none_iff {s : State} (h : s.Inv) : s.cause = .none ↔ s.run ≠ .haltedError :=
  (not_iff_comm.mp h.causeOfError).symm

/-- A halted state shows an ending: every cause has a row under HALTED_ERROR, and every other halt has its own. -/
theorem State.Inv.exists_ending {s : State} (h : s.Inv) (hrun : s.run ≠ .running) : ∃ e, s.ending = some e := by
  simp only [State.ending_eq_some]
  cases hr : s.run with
  | running => exact absurd hr hrun
  | haltedStop => exact ⟨.normalStop, rfl, h.cause_eq_none_iff.mpr (by simp [hr])⟩
  | haltedPcOverflow => exact ⟨.pcOverflow, rfl, h.cause_eq_none_iff.mpr (by simp [hr])⟩
  | haltedTimeout => exact ⟨.timeout, rfl, h.cause_eq_none_iff.mpr (by simp [hr])⟩
  | haltedError =>
    cases hc : s.cause with
    | none => exact absurd hc (h.causeOfError.mpr hr)
    | addressOutOfBounds => exact ⟨.addressOutOfBounds, rfl, rfl⟩
    | illegalOpcode => exact ⟨.illegalOpcode, rfl, rfl⟩
    | inputExhausted => exact ⟨.inputExhausted, rfl, rfl⟩
    | invalidInputToken => exact ⟨.invalidInputToken, rfl, rfl⟩

theorem Ending.run_ne_running (e : Ending) : e.run ≠ .running := by
  cases e <;> nofun

theorem State.Inv.ending_eq_none {s : State} (h : s.Inv) : s.ending = none ↔ s.run = .running := by
  constructor
  · intro hnone
    by_contra hrun
    obtain ⟨e, he⟩ := h.exists_ending hrun
    cases hnone.symm.trans he
  · intro hrun
    refine Option.eq_none_iff_forall_ne_some.mpr fun e he => e.run_ne_running ?_
    exact (State.ending_eq_some.mp he).1.symm.trans hrun

/-- Settles O53: each row is `State.ending_eq_some`, and a normal stop is the one row of HALTED_STOP, whose cause the
invariant gives. -/
theorem endingShownExactlyWhenHalted : Obligations.EndingShownExactlyWhenHalted := by
  intro s hs
  have hstop : s.endedWell ↔ s.ending = some .normalStop :=
    ⟨fun hrun => State.ending_eq_some.mpr ⟨hrun, hs.cause_eq_none_iff.mpr (by simp [hrun])⟩,
      fun he => (State.ending_eq_some.mp he).1⟩
  exact ⟨hs.ending_eq_none, State.ending_eq_some, State.ending_eq_some, State.ending_eq_some, State.ending_eq_some,
    State.ending_eq_some, State.ending_eq_some, State.ending_eq_some, hstop⟩

end Sys2Proof.Machine
end

section
/-! Reset and hazards (70_reset_and_hazards.md): the core is never stuck, and every run ends within the budget of
instructions. -/

namespace Sys2Proof.Machine

/-- Settles O13: a halted machine rests, the fetch's fault is a next state, and every execution has its result. -/
theorem everyStepAnswersNext : Obligations.EveryStepAnswersNext := by
  intro s
  rcases step_cases s with ⟨-, hidle⟩ | ⟨-, r, -, hfault⟩ | ⟨-, i, -, hstep⟩
  · exact ⟨s, hidle⟩
  · exact ⟨s.raise r, hfault⟩
  · obtain ⟨u, hexec, -⟩ := exec_has_result i s
    exact ⟨u, hstep.trans hexec⟩

/-- A step after which the run goes on has counted one instruction (10_state.md R22). -/
theorem icount_of_step_running {s u : State} (hs : s.Inv) (hstep : step s = .next u) (hrun : s.run = .running)
    (hgoes : u.run = .running) : u.icount.toNat = s.icount.toNat + 1 := by
  rw [countOfCompletedInstructions s u hs hrun hstep, if_neg (by simp [hgoes])]

/-- Steps enough for the instructions left of the 128 end the run, since each one after which the run goes on uses up one
of them (40_cycle_and_resolver.md R69, 70_reset_and_hazards.md R114). -/
theorem core_run_ends (n : Nat) {s : State} (hs : s.Inv) (hn : 128 ≤ s.icount.toNat + n) :
    ∃ u, Host.Core.run Sys2Proof.core n s = .next u ∧ u.Inv ∧ u.run ≠ .running := by
  by_cases hrun : s.run = .running
  case neg => exact ⟨s, haltedStatesAreAbsorbing s hrun n, hs, hrun⟩
  induction n generalizing s with
  | zero =>
    have := (hs.running hrun).2
    omega
  | succ n ih =>
    obtain ⟨u, hstep⟩ := everyStepAnswersNext s
    have hu := stepKeepsTheInvariant s u hs hstep
    rw [core_run_succ hstep]
    by_cases hgoes : u.run = .running
    · have := icount_of_step_running hs hstep hrun hgoes
      exact ih hu (by omega) hgoes
    · exact ⟨u, haltedStatesAreAbsorbing u hgoes n, hu, hgoes⟩

/-- Settles O52: the run ends in a state with the invariant, so it shows an ending; a loaded start has the invariant, and
128 steps are enough at any count. -/
theorem everyRunEndsWithin128Cycles : Obligations.EveryRunEndsWithin128Cycles := by
  constructor
  · intro s hs
    obtain ⟨u, hu, -, hhalt⟩ := core_run_ends (128 - s.icount.toNat) hs (by omega)
    exact ⟨u, hu, hhalt⟩
  · intro image input s hload
    obtain ⟨u, hu, hinv, hhalt⟩ := core_run_ends 128 (loadHasTheInvariant image input s hload) (by omega)
    exact ⟨u, hu, mt hinv.ending_eq_none.mp hhalt⟩

end Sys2Proof.Machine
end

section
/-! Encoding and decoding (30_encoding.md): a word is its three fields side by side, so `encode` and `decode` undo each
other. -/

namespace Sys2Proof

open Laws.EncodesLegalWord (assemble_toNat)

/-! ### A word and its fields -/

theorem Mode.bit_injective : Function.Injective Mode.bit := by
  rintro (_ | _) (_ | _) h
  · rfl
  · cases h
  · cases h
  · rfl

section
variable (op : BitVec 3) (m : Mode) (t : Target)

@[simp] theorem opField_assemble : opField (assemble op m t) = op := by
  apply BitVec.eq_of_toNat_eq
  rw [opField_toNat, assemble_toNat]
  omega

@[simp] theorem modeField_assemble : modeField (assemble op m t) = m := by
  apply Mode.bit_injective
  apply BitVec.eq_of_toNat_eq
  rw [modeField_bit_toNat, assemble_toNat]
  omega

@[simp] theorem targetField_assemble : targetField (assemble op m t) = t := by
  apply BitVec.eq_of_toNat_eq
  rw [targetField_toNat, assemble_toNat]
  omega

end

/-- The fields of a word put side by side again are the word (30_encoding.md R47, R48). -/
theorem assemble_of_opField_eq {w : Word} {op : BitVec 3} (h : opField w = op) :
    assemble op (modeField w) (targetField w) = w := by
  obtain ⟨-, -, -, hword⟩ := fieldsOfAWord w
  apply BitVec.eq_of_toNat_eq
  rw [assemble_toNat, ← h, ← hword]

/-! ### The two round trips -/

/-- Settles O5: the decoder's row for each opcode, read at the fields of an assembled word, and under opcode 7 the
dispatch on its target. -/
theorem decodeOfEncodeIsIdentity : Obligations.DecodeOfEncodeIsIdentity := by
  intro i
  obtain ⟨hban, hsub, hstc, hand, hadd, hld, hbr, -⟩ := baseOpcodesDecode (encode i)
  cases i with
  | ban m t => simpa [encode] using hban
  | sub m t => simpa [encode] using hsub
  | stc m t => simpa [encode] using hstc
  | and m t => simpa [encode] using hand
  | add m t => simpa [encode] using hadd
  | ld m t => simpa [encode] using hld
  | br m t => simpa [encode] using hbr
  | rd m => simp [encode, decode_of_opField_eq_seven, decodeExtended_eq_ok]
  | stp m => simp [encode, decode_of_opField_eq_seven, decodeExtended_eq_ok]
  | wrt m => simp [encode, decode_of_opField_eq_seven, decodeExtended_eq_ok]

theorem opField_cases (w : Word) :
    opField w = 0#3 ∨ opField w = 1#3 ∨ opField w = 2#3 ∨ opField w = 3#3 ∨ opField w = 4#3 ∨ opField w = 5#3 ∨
      opField w = 6#3 ∨ opField w = 7#3 := by
  generalize opField w = op
  revert op
  decide

/-- Settles O6: each opcode's row names the fields of the word, which put side by side are the word. -/
theorem encodeOfDecodeIsIdentity : Obligations.EncodeOfDecodeIsIdentity := by
  intro w i hdecode
  obtain ⟨hban, hsub, hstc, hand, hadd, hld, hbr, -⟩ := baseOpcodesDecode w
  rcases opField_cases w with h | h | h | h | h | h | h | h
  · cases (hban h).symm.trans hdecode; exact assemble_of_opField_eq h
  · cases (hsub h).symm.trans hdecode; exact assemble_of_opField_eq h
  · cases (hstc h).symm.trans hdecode; exact assemble_of_opField_eq h
  · cases (hand h).symm.trans hdecode; exact assemble_of_opField_eq h
  · cases (hadd h).symm.trans hdecode; exact assemble_of_opField_eq h
  · cases (hld h).symm.trans hdecode; exact assemble_of_opField_eq h
  · cases (hbr h).symm.trans hdecode; exact assemble_of_opField_eq h
  · rw [decode_of_opField_eq_seven h] at hdecode
    rcases decodeExtended_eq_ok.mp hdecode with ⟨ht, rfl⟩ | ⟨ht, rfl⟩ | ⟨ht, rfl⟩
    · rw [encode, ← ht, assemble_of_opField_eq h]
    · rw [encode, ← ht, assemble_of_opField_eq h]
    · rw [encode, ← ht, assemble_of_opField_eq h]

/-- Settles O7: the decoder runs on each of the nine words. -/
theorem writtenWordsDecode : Obligations.WrittenWordsDecode :=
  ⟨rfl, rfl, rfl, rfl, rfl, rfl, rfl, rfl, rfl⟩

/-- A word given as a number is that word (30_encoding.md R46). -/
theorem tableWord_toNat (w : Word) : tableWord 16 w.toNat = w := by
  rw [tableWord, Nat.mod_eq_of_lt w.isLt, BitVec.ofNat_toNat, BitVec.setWidth_eq]

end Sys2Proof
end

section
/-! The instruction placed at `pc` (70_reset_and_hazards.md section 1), and the frames (41_arithmetic_load_store.md,
42_branch.md, 43_extended_io.md, 60_exceptions.md section 4): what executing an instruction leaves unchanged, one piece of
the state at a time. -/

namespace Sys2Proof.Machine

/-! ### The instruction placed at `pc` -/

/-- Settles O9: the cell at `pc` is loaded and reads as the word just written there. -/
theorem withFetchWordIsRunNext : Obligations.WithFetchWordIsRunNext := by
  intro s w i hwf _ hdecode
  have hcell : s.pc.toNat < (s.withFetchWord 16 w.toNat).memLen := lt_max_of_lt_right (Nat.lt_succ_self _)
  have hread : Memory.read (s.withFetchWord 16 w.toNat).mem s.pc.toNat = w :=
    (Memory.read_write_same _ _ hwf).trans (tableWord_toNat w)
  exact stepRunsTheDecodedInstruction _ i rfl hcell (hread.symm ▸ hdecode)

/-! ### Direct input and output -/

/-- Settles O33: the direct location is the selector itself, so the resolver has no fault to give. -/
theorem directInputOutputNeedsNoCell : Obligations.DirectInputOutputNeedsNoCell := by
  intro s
  obtain ⟨-, -, hrd⟩ := rdReadsOneItem .direct s
  obtain ⟨-, -, hvalue⟩ := hrd _ (resolve_direct 1#12 s)
  obtain ⟨-, hwrt, -⟩ := wrtAppendsTheAccumulator .direct s
  exact ⟨hvalue, hwrt _ (resolve_direct 3#12 s)⟩

section
variable {i : Instr} {s u : State} (hexec : exec i s = .next u)
include hexec

/-! ### Completed and faulted cycles -/

theorem exec_memLen : u.memLen = s.memLen := by
  cases ExecResult.of_exec hexec with
  | fault r _ => rfl
  | badToken m later _ _ => rfl
  | completed h => rw [endCycle_memLen, h.memLen]

theorem exec_mem (hstc : ∀ m t, i ≠ .stc m t) : u.mem = s.mem := by
  by_contra hne
  obtain ⟨m, t, hi⟩ := onlyStcWritesMemory i s u hexec hne
  exact hstc m t hi

/-- A completed cycle is counted and records no cause (40_cycle_and_resolver.md R59, 10_state.md R21). -/
theorem exec_completed_frame (hdone : u.run ≠ .haltedError) : u.cause = s.cause ∧ u.icount = s.icount + 1#8 := by
  cases ExecResult.of_exec hexec with
  | fault r _ => exact absurd rfl hdone
  | badToken m later _ _ => exact absurd rfl hdone
  | completed h => rw [endCycle_cause, endCycle_icount, h.cause, h.icount]; exact ⟨rfl, rfl⟩

/-- A cycle that faulted has raised, and has done nothing else but take RD's bad token (60_exceptions.md R100, R103). -/
theorem exec_eq_raise (hrun : s.run = .running) (hfault : u.run = .haltedError) :
    ∃ r items, u = (s.setInput items).raise r ∧
      (items = s.input ∨ (∃ m, i = .rd m) ∧ r = .invalidInputToken) := by
  cases ExecResult.of_exec hexec with
  | fault r _ => exact ⟨r, s.input, rfl, .inl rfl⟩
  | badToken m later hi _ => exact ⟨_, later, rfl, .inr ⟨⟨m, hi⟩, rfl⟩⟩
  | completed h => exact absurd hfault (endCycle_run_ne_haltedError _ (h.run.trans hrun))

theorem exec_fault_frame (hrun : s.run = .running) (hfault : u.run = .haltedError) :
    u.acc = s.acc ∧ u.pc = s.pc ∧ u.icount = s.icount ∧ u.mem = s.mem ∧ u.out = s.out := by
  obtain ⟨r, items, rfl, -⟩ := exec_eq_raise hexec hrun hfault
  exact ⟨rfl, rfl, rfl, rfl, rfl⟩

/-! ### The two streams -/

/-- No fault but a bad token's has taken an item (60_exceptions.md R103, decision D8). -/
theorem exec_fault_input (hrun : s.run = .running) (hfault : u.run = .haltedError)
    (hkept : (∀ m, i ≠ .rd m) ∨ u.cause ≠ .invalidInputToken) : u.input = s.input := by
  obtain ⟨r, items, rfl, hitems | ⟨⟨m, hi⟩, rfl⟩⟩ := exec_eq_raise hexec hrun hfault
  · exact hitems
  · rcases hkept with hrd | hcause
    · exact absurd hi (hrd m)
    · exact absurd rfl hcause

theorem exec_input (hrun : s.run = .running) (hrd : ∀ m, i ≠ .rd m) : u.input = s.input := by
  rcases exec_streams hexec with hfault | hstreams
  · exact exec_fault_input hexec hrun hfault (.inl hrd)
  · cases i with
    | rd m => exact absurd rfl (hrd m)
    | _ => exact hstreams.1

theorem exec_out (hrun : s.run = .running) (hwrt : ∀ m, i ≠ .wrt m) : u.out = s.out := by
  rcases exec_streams hexec with hfault | hstreams
  · obtain ⟨-, -, -, -, hout⟩ := exec_fault_frame hexec hrun hfault
    exact hout
  · cases i with
    | wrt m => exact absurd rfl (hwrt m)
    | _ => exact hstreams.2

end

/-! ### The accumulator -/

theorem withLocation_acc {m : Mode} {t : Target} {s : State} {k : Nat → State} (h : ∀ loc, (k loc).acc = s.acc) :
    (withLocation m t s k).acc = s.acc := by
  rcases withLocation_cases m t s k with ⟨stage, addr, -, hk⟩ | ⟨loc, -, -, hk⟩
  · rw [hk, State.raise_acc]
  · rw [hk, h]

theorem exec_wrt_acc {m : Mode} {s u : State} (hexec : exec (.wrt m) s = .next u) : u.acc = s.acc := by
  cases hexec
  exact withLocation_acc fun _ => endCycle_acc _ _

theorem exec_transfer_acc {m : Mode} {t : Target} {s u : State} {i : Instr}
    (hi : i ∈ [Instr.ban m t, .br m t, .stp m]) (hexec : exec i s = .next u) : u.acc = s.acc := by
  simp only [List.mem_cons, List.not_mem_nil, or_false] at hi
  rcases hi with rfl | rfl | rfl <;> cases hexec
  · exact withLocation_acc fun _ => endCycle_acc _ _
  · exact withLocation_acc fun _ => endCycle_acc _ _
  · exact endCycle_acc _ _

/-! ### The frames -/

/-- Settles O34: none of the four is STC, RD or WRT, so memory and both streams are kept. -/
theorem frameOfAccumulatorInstructions : Obligations.FrameOfAccumulatorInstructions := by
  intro m t s u i hrun hi hexec
  have hmem := exec_mem hexec fun _ _ => ne_of_mem_of_not_mem hi (by simp)
  have hinput := exec_input hexec hrun fun _ => ne_of_mem_of_not_mem hi (by simp)
  have hout := exec_out hexec hrun fun _ => ne_of_mem_of_not_mem hi (by simp)
  refine ⟨fun a => by rw [hmem], exec_memLen hexec, hinput, hout, exec_completed_frame hexec, fun hfault => ?_⟩
  obtain ⟨hacc, hpc, hicount, -, -⟩ := exec_fault_frame hexec hrun hfault
  exact ⟨hacc, hpc, hicount⟩

theorem storeAndClear_read_other (s : State) {loc a : Nat} (h : a ≠ loc) :
    Memory.read (storeAndClear s loc).mem a = Memory.read s.mem a := by
  rcases storeAndClear_cases s loc with ⟨-, hstc⟩ | ⟨-, hstc⟩
  · rw [hstc, State.raise_mem]
  · rw [hstc, endCycle_mem, State.setAcc_mem, State.setMem_mem, Memory.read_write_other h]

/-- Settles O35: STC is its store at the resolved location, or the resolver's fault. -/
theorem frameOfStc : Obligations.FrameOfStc := by
  intro m t s u hrun hexec
  refine ⟨fun loc hloc a ha => ?other, fun r hr a => ?unresolved, exec_memLen hexec, exec_input hexec hrun nofun,
    exec_out hexec hrun nofun, exec_completed_frame hexec, fun hfault => ?fault⟩
  case other =>
    cases (exec_stc_of_resolve hloc).symm.trans hexec
    exact storeAndClear_read_other s ha
  case unresolved =>
    cases (exec_withLocation_error rfl hr).symm.trans hexec
    rfl
  case fault =>
    obtain ⟨hacc, hpc, hicount, hmem, -⟩ := exec_fault_frame hexec hrun hfault
    exact ⟨hacc, hpc, hicount, fun a => by rw [hmem]⟩

/-- Settles O36: none of the three is STC, RD or WRT, and none writes the accumulator. -/
theorem frameOfControlTransfers : Obligations.FrameOfControlTransfers := by
  intro m t s u i hrun hi hexec
  have hmem := exec_mem hexec fun _ _ => ne_of_mem_of_not_mem hi (by simp)
  have hinput := exec_input hexec hrun fun _ => ne_of_mem_of_not_mem hi (by simp)
  have hout := exec_out hexec hrun fun _ => ne_of_mem_of_not_mem hi (by simp)
  refine ⟨exec_transfer_acc hi hexec, fun a => by rw [hmem], exec_memLen hexec, hinput, hout,
    exec_completed_frame hexec, fun hfault => ?_⟩
  obtain ⟨-, hpc, hicount, -, -⟩ := exec_fault_frame hexec hrun hfault
  exact ⟨hpc, hicount⟩

/-- Settles O37: RD leaves the output, WRT the input, and a fault both but for the bad token (decision D8). -/
theorem frameOfInputOutput : Obligations.FrameOfInputOutput := by
  intro m s u i hrun hi hexec
  have hmem := exec_mem hexec fun _ _ => ne_of_mem_of_not_mem hi (by simp)
  refine ⟨fun a => by rw [hmem], exec_memLen hexec, ?rd, ?wrt, exec_completed_frame hexec, fun hfault => ?fault⟩
  case rd =>
    rintro rfl
    exact exec_out hexec hrun nofun
  case wrt =>
    rintro rfl
    exact ⟨exec_wrt_acc hexec, exec_input hexec hrun nofun⟩
  case fault =>
    obtain ⟨hacc, hpc, hicount, -, hout⟩ := exec_fault_frame hexec hrun hfault
    exact ⟨hacc, hpc, hicount, hout, fun hcause => exec_fault_input hexec hrun hfault (.inr hcause)⟩

end Sys2Proof.Machine
end
